-- ==== Sys2Proof/Word.lean ====
section
/-! DEFINITION. The widths of the block: bytes, bucket words, digests, hashes, command words.
`00_scope.md` R7, R8; `30_encoding.md` R70. -/

namespace Sys2Proof

/-- The low byte of a bucket word, an aging stamp, the aging counter (R8, R13). -/
abbrev Byte := BitVec 8

/-- A bucket word, `W = 32` bits (R8). -/
abbrev Word := BitVec 32

/-- A slot of a bucket: a 24-bit digest, 0 meaning empty (R7, R115). -/
abbrev Digest := BitVec 24

/-- A precomputed hash, an operand or a register value (R7, R16, R73). -/
abbrev DWord := BitVec 64

/-- A command word `OP ‖ ARG` (R70). -/
abbrev CommandWord := BitVec 72

end Sys2Proof
end

