-- ==== Sys2Proof/Syntax.lean ====
section
/-! DEFINITION. The twelve commands of `30_encoding.md` R75, one constructor per row of
`spec/opcode_table.json`, with the operand fields of R76.

The reserved bits of formats Z, R, B and M are fields too: a word with a legal `OP` and a bad operand
selects its row and is then refused by the operand check of R85 to R89 (introduction of
`30_encoding.md`), so the row must be able to hold it. DEDUCED, safe; log 12. -/

namespace Sys2Proof

/-- A decoded command (R75, R76). -/
inductive Instr where
  /-- `CREATE cap`, format C (R195). -/
  | create (cap : DWord)
  /-- `DESTROY`, format Z; `arg` must be 0 (R202). -/
  | destroy (arg : DWord)
  /-- `FLUSH`, format Z; `arg` must be 0 (R204). -/
  | flush (arg : DWord)
  /-- `RDREG reg`, format R; `rsv` must be 0 (R210). -/
  | rdreg (rsv : BitVec 56) (rn : BitVec 8)
  /-- `CHECK h`, format H (R180). -/
  | check (h : DWord)
  /-- `SET h`, format H (R155). -/
  | set (h : DWord)
  /-- `DELETE h`, format H (R188). -/
  | delete (h : DWord)
  /-- `DERIV1 h`, format H (R108). -/
  | deriv1 (h : DWord)
  /-- `DERIV2 h`, format H (R109). -/
  | deriv2 (h : DWord)
  /-- `BLKUP idx, dw`, format B; `rsv` must be 0 and `d` nonzero (R126). -/
  | blkup (idx : BitVec 32) (d : Digest) (rsv : BitVec 8)
  /-- `BLKUPC idx, dw`, format B; `rsv` must be 0 and `d` nonzero (R127). -/
  | blkupc (idx : BitVec 32) (d : Digest) (rsv : BitVec 8)
  /-- `RDW idx, wn`, format M; `rsv` must be 0 (R128). -/
  | rdw (idx : BitVec 32) (rsv : BitVec 28) (wn : BitVec 4)
deriving DecidableEq, Repr

end Sys2Proof
end

