-- ==== Sys2Proof/Machine/Operands.lean ====
section
/-! DEFINITION. The six operand forms of `30_encoding.md` R76 and their static checks R85 to R89.
They look at the command word only, never at the state (`60_exceptions.md` R223, steps 1 and 2). -/

namespace Sys2Proof.Machine

/-- Format Z (R77, R85): the whole operand is reserved and must be 0. -/
def formatZOk (arg : DWord) : Bool := arg == 0

/-- Format C (R78, R86): every requested capacity is legal. -/
def formatCOk (_cap : DWord) : Bool := true

/-- Format H (R79, R86): every hash is legal. -/
def formatHOk (_h : DWord) : Bool := true

/-- Format R (R80, R87): reserved bits 0 and a register number of 0 to 10. -/
def formatROk (rsv : BitVec 56) (rn : BitVec 8) : Bool := rsv == 0 && decide (rn.toNat ≤ 10)

/-- Format B (R81, R88): reserved bits 0 and a nonzero digest. -/
def formatBOk (d : Digest) (rsv : BitVec 8) : Bool := rsv == 0 && d != 0

/-- Format M (R82, R89): reserved bits 0; the word number cannot be out of range. -/
def formatMOk (rsv : BitVec 28) : Bool := rsv == 0

/-- The digest word of a digest: left-aligned in a word, low byte 0 (`00_scope.md` glossary,
`40_hash_derivation.md` R104). -/
def digestWord (d : Digest) : Word := d ++ (0 : Byte)

end Sys2Proof.Machine
end

