-- ==== Sys2Proof/WellFormed.lean ====
section
/-! DEFINITION. When a decoded command is well-formed: its static operand check passes
(`30_encoding.md` R85 to R89, R92 case (a)). -/

namespace Sys2Proof

/-- The static operand check of the command's format (`60_exceptions.md` R223, step 2). -/
def Instr.wf : Instr → Bool
  | .create cap => Machine.formatCOk cap
  | .destroy arg => Machine.formatZOk arg
  | .flush arg => Machine.formatZOk arg
  | .rdreg rsv rn => Machine.formatROk rsv rn
  | .check h => Machine.formatHOk h
  | .set h => Machine.formatHOk h
  | .delete h => Machine.formatHOk h
  | .deriv1 h => Machine.formatHOk h
  | .deriv2 h => Machine.formatHOk h
  | .blkup _ d rsv => Machine.formatBOk d rsv
  | .blkupc _ d rsv => Machine.formatBOk d rsv
  | .rdw _ rsv _ => Machine.formatMOk rsv

end Sys2Proof
end

