-- ==== Sys2Proof/Decode.lean ====
section
/-! DEFINITION. The decoder and the encoder of command words (`30_encoding.md` R70, R75, R76, R84),
and the assembler's operand placement (R94, R95). A command is one 72-bit word, so the decoder is a
total function on 72-bit words (R92, R93). -/

namespace Sys2Proof

/-- Why a word is no command: its `OP` is not one of the twelve opcodes (R84). -/
inductive DecodeError where
  | illegalOpcode (op : BitVec 8)
deriving DecidableEq, Repr

/-- `OP = cmd[71:64]` (R70). -/
def opField (c : CommandWord) : BitVec 8 := c.extractLsb' 64 8

/-- `ARG = cmd[63:0]` (R70). -/
def argField (c : CommandWord) : DWord := c.extractLsb' 0 64

/-- The opcode map of R75 and the operand fields of R76, from `OP` and `ARG`. -/
def decodeFields (op : BitVec 8) (arg : DWord) : Except DecodeError Instr :=
  if op = 0x01 then .ok (.create arg)
  else if op = 0x02 then .ok (.destroy arg)
  else if op = 0x03 then .ok (.flush arg)
  else if op = 0x04 then .ok (.rdreg (arg.extractLsb' 8 56) (arg.extractLsb' 0 8))
  else if op = 0x10 then .ok (.check arg)
  else if op = 0x11 then .ok (.set arg)
  else if op = 0x12 then .ok (.delete arg)
  else if op = 0x20 then .ok (.deriv1 arg)
  else if op = 0x21 then .ok (.deriv2 arg)
  else if op = 0x30 then
    .ok (.blkup (arg.extractLsb' 32 32) (arg.extractLsb' 8 24) (arg.extractLsb' 0 8))
  else if op = 0x31 then
    .ok (.blkupc (arg.extractLsb' 32 32) (arg.extractLsb' 8 24) (arg.extractLsb' 0 8))
  else if op = 0x32 then
    .ok (.rdw (arg.extractLsb' 32 32) (arg.extractLsb' 4 28) (arg.extractLsb' 0 4))
  else .error (.illegalOpcode op)

/-- The command a word stands for, or the illegal opcode it holds (R92). -/
def decode (c : CommandWord) : Except DecodeError Instr := decodeFields (opField c) (argField c)

/-- The opcode of a command (R75). -/
def opcodeOf : Instr → BitVec 8
  | .create _ => 0x01
  | .destroy _ => 0x02
  | .flush _ => 0x03
  | .rdreg _ _ => 0x04
  | .check _ => 0x10
  | .set _ => 0x11
  | .delete _ => 0x12
  | .deriv1 _ => 0x20
  | .deriv2 _ => 0x21
  | .blkup _ _ _ => 0x30
  | .blkupc _ _ _ => 0x31
  | .rdw _ _ _ => 0x32

/-- The operand of a command: its fields in the places R76 gives them. -/
def operandOf : Instr → DWord
  | .create cap => cap
  | .destroy arg => arg
  | .flush arg => arg
  | .rdreg rsv rn => rsv ++ rn
  | .check h => h
  | .set h => h
  | .delete h => h
  | .deriv1 h => h
  | .deriv2 h => h
  | .blkup idx d rsv => idx ++ (d ++ rsv)
  | .blkupc idx d rsv => idx ++ (d ++ rsv)
  | .rdw idx rsv wn => idx ++ (rsv ++ wn)

/-- The word of a command: `OP ‖ ARG` (R70). -/
def encode (i : Instr) : CommandWord := opcodeOf i ++ operandOf i

/-- The 72-bit word of a table row's bits: `nbits` bits of `w`, every bit above them 0. The command
has one word, so the table's bit numbers are the word's own. -/
def tableWord (nbits w : Nat) : CommandWord := BitVec.ofNat 72 (w % 2 ^ nbits)

/-- The instruction the decoder reads from the bits of a table row. -/
def decodeTableWord (nbits w : Nat) : Option Instr :=
  match decode (tableWord nbits w) with
  | .ok i => some i
  | .error _ => none

/-! The assembler of R94: it places the operands as R76 says and checks nothing. -/

/-- `RDREG reg` with a register number 0 to 255 (R94). -/
def asmRdreg (reg : BitVec 8) : Instr := .rdreg 0 reg
/-- `BLKUP idx, dw`: `ARG[31:0] = dw` (R94). -/
def asmBlkup (idx dw : BitVec 32) : Instr := .blkup idx (dw.extractLsb' 8 24) (dw.extractLsb' 0 8)
/-- `BLKUPC idx, dw`: `ARG[31:0] = dw` (R94). -/
def asmBlkupc (idx dw : BitVec 32) : Instr := .blkupc idx (dw.extractLsb' 8 24) (dw.extractLsb' 0 8)
/-- `RDW idx, wn`: `ARG[3:0] = wn` (R94). -/
def asmRdw (idx : BitVec 32) (wn : BitVec 4) : Instr := .rdw idx 0 wn
/-- The pseudo-command `DROPCOUNT`, `RDREG DROPS` (R95). -/
def asmDropCount : Instr := asmRdreg 10
/-- The pseudo-command `CAPACITY`, `RDREG CAPACITY` (R95). -/
def asmCapacity : Instr := asmRdreg 4
/-- The pseudo-command `MEMBYTES`, `RDREG MEMBYTES` (R95). -/
def asmMemBytes : Instr := asmRdreg 5

end Sys2Proof
end

