-- ==== Sys2Proof/Config.lean ====
section
/-! DEFINITION. The open parameters of `00_scope.md` R9, as the configuration record the rule asks
for, and the free values that stand where the spec says a register or the store has "no value". -/

namespace Sys2Proof

/-- The open parameters of R9. A machine has one value of it for its whole life (`State.config`). -/
structure Config where
  /-- `MULT1`: first multiplier, odd. -/
  mult1 : DWord
  /-- `MULT2`: second multiplier, odd, different from `MULT1`. -/
  mult2 : DWord
  /-- `SENTINEL24`: what a computed digest of 0 is remapped to, nonzero. -/
  sentinel24 : Digest
  /-- `INDEX_SHIFT`: the right shift that brings the index bits of a product down. -/
  indexShift : Nat
  /-- `IBITS_MAX`: the largest index width the bucket store can hold. -/
  ibitsMax : Nat
deriving DecidableEq, Repr

/-- The constraints R9 puts on the parameters. -/
abbrev Config.Legal (c : Config) : Prop :=
  c.mult1.toNat % 2 = 1 ∧ c.mult2.toNat % 2 = 1 ∧ c.mult1 ≠ c.mult2 ∧ c.sentinel24 ≠ 0 ∧
    24 ≤ c.indexShift ∧ c.indexShift + c.ibitsMax ≤ 64 ∧ 1 ≤ c.ibitsMax ∧ c.ibitsMax ≤ 31

/-- The reference values of R9 (D4 to D6, D18), the ones `95_test_vectors.md` uses. DESIGN CHOICE,
unsafe: they are one legal configuration among many; log 4. -/
def Config.reference : Config where
  mult1 := 0x9E3779B97F4A7C15
  mult2 := 0xC2B2AE3D27D4EB4F
  sentinel24 := 0x000001
  indexShift := 32
  ibitsMax := 8

/-! Free values: what a table register or the store holds while it has "no value" (`10_state.md`
R41, `46_lifecycle.md` R203, `70_reset_and_hazards.md` R250; V1, V3 of
`93_implementation_defined.md`). No body: nothing can be proved of them. DESIGN CHOICE, safe; log 5.
The argument is `State.freeCount`. -/

/-- `IBITS` without a value. -/
opaque Config.noValueIbits : Nat → Nat
/-- `SEED` without a value. -/
opaque Config.noValueSeed : Nat → DWord
/-- `EPOCH` without a value. -/
opaque Config.noValueEpoch : Nat → Byte
/-- `INSCNT` without a value. -/
opaque Config.noValueInscnt : Nat → DWord
/-- `THRESH` without a value. -/
opaque Config.noValueThresh : Nat → DWord
/-- `DROPS` without a value. -/
opaque Config.noValueDrops : Nat → DWord
/-- The bytes of the bucket store while they are unspecified. -/
opaque Config.noValueStore : Nat → List Host.Cell

end Sys2Proof
end

