-- ==== Sys2Proof/Machine/State.lean ====
section
/-! DEFINITION. The state of the block (`10_state.md` R20), the inputs of a step that the spec passes
beside it (R263: the configuration, the issued commands, the draw) and the response it gives (R73). -/

namespace Sys2Proof.Machine

/-- The error codes of `60_exceptions.md` R221; V8: a model's error type has exactly these seven. -/
inductive ErrCode where
  /-- 0, the command executed. -/
  | ok
  /-- 1, `E_ILLOP`: no such opcode (R84). -/
  | illop
  /-- 2, `E_OPERAND`: a static operand check failed (R85 to R89). -/
  | operand
  /-- 3, `E_NOTABLE`: the command needs a table and there is none. -/
  | noTable
  /-- 4, `E_EXISTS`: `CREATE` while a table exists (R200). -/
  | exist
  /-- 5, `E_RANGE`: bucket index outside the table (R90). -/
  | range
  /-- 6, `E_ALLOC`: the table does not fit the bucket store (R197). -/
  | alloc
deriving DecidableEq, Repr

/-- A response: `ERR`, `RES`, `VAL` (R73). -/
structure Response where
  /-- `RSP_ERR`. -/
  err : ErrCode
  /-- `RSP_RES`. -/
  res : Bool
  /-- `RSP_VAL`. -/
  val : DWord
deriving DecidableEq, Repr

/-- Everything the host can do to the block (`70_reset_and_hazards.md` R262). -/
inductive HostAction where
  /-- Issue a command word: exactly one `Step` (R263). -/
  | issue (cmd : CommandWord)
  /-- Drive the port `rand_in` (R71, R198). -/
  | drive (rand : DWord)
  /-- Take the response (R72). -/
  | take
  /-- Wait: the state does not change between commands. -/
  | wait
  /-- Assert `rst` (R250). -/
  | rst
deriving DecidableEq, Repr

/-- The bucket store as bytes: word address `a` of `20_memory.md` R52 is the bytes `4a` to `4a+3`.
Canonical form: `Memory.wf` of `Machine/Ops.lean`. -/
abbrev Memory := List Host.Cell

/-- The whole state of the block and the inputs and output of its step. -/
structure State where
  /-- The parameters of R9, an input of the step (R20); no command writes them. Model's own; log 4. -/
  config : Config
  /-- The host's future actions in order (R262, R263). Model's own; log 3. -/
  inputs : List HostAction
  /-- The value on the port `rand_in` (R71). Model's own; log 7. -/
  randIn : DWord
  /-- The response the block offers, `none` while `rsp_valid` is 0 (R71, R73, R250). Log 6. -/
  rsp : Option Response
  /-- `CFG`, `STATUS[0]`: a table exists (R20, R24). -/
  cfg : Bool
  /-- `ERRS`, `STATUS[1]`: some command was refused since reset (R20, R24). -/
  errs : Bool
  /-- `LASTERR`, `STATUS[7:4]`: code of the last refused command (R20, R24). -/
  lasterr : ErrCode
  /-- `IBITS`: the index width, an integer 1 to `IBITS_MAX` (R20, R26). -/
  ibits : Nat
  /-- `SEED` (R20, R30). -/
  seed : DWord
  /-- `EPOCH`: the aging counter, modulo 256 (R20, R31). -/
  epoch : Byte
  /-- `INSCNT`: inserting `SET`s since the last advance of `EPOCH` (R20, R32). -/
  inscnt : DWord
  /-- `THRESH`: the aging threshold (R20, R33). -/
  thresh : DWord
  /-- `DROPS`: the cumulative drop counter (R20, R34). -/
  drops : DWord
  /-- `MEM`: the bucket store (R20, R50). -/
  mem : Memory
  /-- Picks fresh free values where the spec says "no value". Model's own; log 5. -/
  freeCount : Nat
deriving DecidableEq, Repr

/-- The ways the machine can stop. The spec has none (`60_exceptions.md` R220). -/
inductive Fault where
  /-- Raised by a command that would reach the bucket store in a state with a table whose `IBITS`
  exceeds `IBITS_MAX`: its buckets lie outside the store (R50, R51). R20's type excludes such states
  and no run reaches one. DESIGN CHOICE, safe: the machine stops where the spec describes none. Log 9. -/
  | tableBeyondStore
deriving DecidableEq, Repr

/-- The ways the model can decline. -/
inductive Refusal where
  /-- Raised by an arm of `exec` that has no meaning yet. None is left. Safe: nothing is claimed. -/
  | notModelled (mnemonic : String)
deriving DecidableEq, Repr

/-- The block right after hardware reset (R39, R250), with the reference parameters of R9 and no host
action pending. `CFG`, `ERRS`, `LASTERR` are the spec's; the table registers and the store have "no
value" there, and hold the values named here. DESIGN CHOICE, unsafe; logs 1, 2, 4, 7. -/
def State.reset : State where
  config := Config.reference
  inputs := []
  randIn := 0
  rsp := none
  cfg := false
  errs := false
  lasterr := .ok
  ibits := 1
  seed := 0
  epoch := 0
  inscnt := 0
  thresh := 0
  drops := 0
  mem := []
  freeCount := 0

/-- What a command, or a step, answers. -/
abbrev Result := Host.Outcome State Fault Refusal

end Sys2Proof.Machine
end

