-- ==== Sys2Proof/Machine/Flags.lean ====
section
/-! DEFINITION. The flag-like bits of `10_state.md` R23: the `STATUS` register (R24), the 4-bit error
codes (`60_exceptions.md` R221) and the 69-bit response word that carries the result bit
(`30_encoding.md` R73). No command has a condition code. -/

namespace Sys2Proof.Machine

/-- The 4-bit value of an error code (R221). -/
def errCode : ErrCode → BitVec 4
  | .ok => 0
  | .illop => 1
  | .operand => 2
  | .noTable => 3
  | .exist => 4
  | .range => 5
  | .alloc => 6

/-- `STATUS`: `zext(LASTERR ‖ 0b00 ‖ ERRS ‖ CFG)` (R24, R210). -/
def statusWord (s : State) : DWord :=
  (errCode s.lasterr ++ (0 : BitVec 2) ++ BitVec.ofBool s.errs ++ BitVec.ofBool s.cfg).setWidth 64

/-- The response word `ERR[68:65] ‖ RES[64] ‖ VAL[63:0]` (R73). -/
def responseWord (r : Response) : BitVec 69 := errCode r.err ++ BitVec.ofBool r.res ++ r.val

end Sys2Proof.Machine
end

