-- ==== Sys2Proof/Machine/Ops.lean ====
section
/-! DEFINITION. The shared operations: the bucket store (`20_memory.md` R50 to R54), the table
registers (`10_state.md` R24 to R34), answering a command (`30_encoding.md` R73, R74), refusing one
(`60_exceptions.md` R222, the block's only exceptional event), the checks of R223 that read the state,
and the loss of all table state (R203, R250). -/

namespace Sys2Proof.Machine

/-! ### The bucket store, byte by byte -/

/-- What a byte of the store reads as where nothing is listed. The spec gives the store no reset
contents (R39, V1). DESIGN CHOICE, unsafe; log 2. -/
def fillByte : Byte := 0

/-- The byte at a byte address. -/
def readByte : Memory → Nat → Byte
  | [], _ => fillByte
  | c :: m, a => if c.1 = a then c.2 else readByte m a

/-- Replace the byte at a byte address, keeping the canonical form: a byte equal to `fillByte` is not
listed. -/
def writeByte : Memory → Nat → Byte → Memory
  | [], a, v => if v = fillByte then [] else [(a, v)]
  | c :: m, a, v =>
    if c.1 < a then c :: writeByte m a v
    else if v = fillByte then (if c.1 = a then m else c :: m)
    else (a, v) :: (if c.1 = a then m else c :: m)

/-- The canonical form of a memory: addresses strictly rising, no byte listed that an unlisted address
would read as. -/
def Memory.wf : Memory → Bool
  | [] => true
  | c :: m => c.2 != fillByte && m.all (fun d => decide (c.1 < d.1)) && Memory.wf m

/-! ### The bucket store, word by word -/

/-- `MemRead(a, 1)`: the 32-bit word at a word address (R52), from its four bytes, bits 7:0 at the
lowest byte address (R54; log 8). -/
@[irreducible] def memRead (m : Memory) (a : Nat) : Word :=
  readByte m (4 * a + 3) ++ readByte m (4 * a + 2) ++ readByte m (4 * a + 1) ++ readByte m (4 * a)

/-- `MemWrite(a, 1, v)`: replace the word at a word address (R52). -/
@[irreducible] def memWrite (m : Memory) (a : Nat) (v : Word) : Memory :=
  writeByte (writeByte (writeByte (writeByte m (4 * a) (v.extractLsb' 0 8)) (4 * a + 1)
    (v.extractLsb' 8 8)) (4 * a + 2) (v.extractLsb' 16 8)) (4 * a + 3) (v.extractLsb' 24 8)

/-- `word(b, i) = 16*b + i`: the word address of word `i` of bucket `b` (R52). -/
def wordAddr (b i : Nat) : Nat := 16 * b + i

/-- Zero every word of buckets `0 .. n-1`, the sweep of `CREATE` and `FLUSH` (R195, R204): a zero byte
is an unlisted one, so the sweep drops what is listed below byte `64*n`. -/
def clearBuckets (m : Memory) (n : Nat) : Memory := m.filter fun c => decide (64 * n ≤ c.1)

/-- The bytes of the bucket store: `2^(IBITS_MAX+7)` (R50). -/
def storeBytes (c : Config) : Nat := 2 ^ (c.ibitsMax + 7)

/-- The store that holds the given bytes, those outside the store left out: how an unspecified content
becomes a memory in canonical form. -/
def storeOf (c : Config) (cells : List Host.Cell) : Memory :=
  cells.foldl (fun m x => if x.1 < storeBytes c then writeByte m x.1 x.2 else m) []

/-! ### Quantities that are functions of `IBITS` -/

/-- `ISIZE = 2^IBITS`: the buckets in one half (R26). -/
def isize (ibits : Nat) : Nat := 2 ^ ibits

/-- The buckets of the table, `0 .. 2*ISIZE-1` (R51). -/
def tableBuckets (ibits : Nat) : Nat := 2 * isize ibits

/-- `IMASK = 2^IBITS - 1` (R27). -/
def imask (ibits : Nat) : DWord := BitVec.ofNat 64 (2 ^ ibits - 1)

/-- `CAPACITY = 42 * 2^IBITS` (R28). -/
def capacityOf (ibits : Nat) : DWord := BitVec.ofNat 64 (42 * 2 ^ ibits)

/-- `MEMBYTES = 128 * 2^IBITS` (R29). -/
def memBytesOf (ibits : Nat) : DWord := BitVec.ofNat 64 (128 * 2 ^ ibits)

/-- `THRESH = CAPACITY div 16`, floored (R14, R33). -/
def threshOf (ibits : Nat) : DWord := BitVec.ofNat 64 (42 * 2 ^ ibits / 16)

/-! ### The table registers -/

/-- The value `RDREG` gives for a register number, zero-extended (R24 to R34, R210). Numbers above 10
are no registers (R35) and are refused before they are read. -/
def readReg (s : State) (rn : Nat) : DWord :=
  match rn with
  | 0 => statusWord s
  | 1 => BitVec.ofNat 64 s.config.ibitsMax
  | 2 => BitVec.ofNat 64 s.ibits
  | 3 => imask s.ibits
  | 4 => capacityOf s.ibits
  | 5 => memBytesOf s.ibits
  | 6 => s.seed
  | 7 => s.epoch.setWidth 64
  | 8 => s.inscnt
  | 9 => s.thresh
  | 10 => s.drops
  | _ => 0

/-! ### Answering and refusing -/

/-- `respond(res, val)`: error code 0; `ERRS` and `LASTERR` keep their values (R11, R73, R222). -/
def respond (res : Bool) (val : DWord) (s : State) : State :=
  { s with rsp := some { err := .ok, res := res, val := val } }

/-- `refuse(e)`: the effect of the block's only exceptional event, in full (R222, R227). Two `STATUS`
fields are written, the response carries the code, nothing else changes; there is no handler to enter
and so no return (R228). -/
def refuse (e : ErrCode) (s : State) : State :=
  { s with errs := true, lasterr := e, rsp := some { err := e, res := false, val := 0 } }

/-- The state with another content of the store. -/
def setMem (s : State) (m : Memory) : State := { s with mem := m }

/-- Every table register loses its value and the store becomes unspecified (R41, R203, R250): each
holds a fresh free value. DESIGN CHOICE, safe; log 5. -/
def voidTable (s : State) : State :=
  { s with
    ibits := Config.noValueIbits s.freeCount
    seed := Config.noValueSeed s.freeCount
    epoch := Config.noValueEpoch s.freeCount
    inscnt := Config.noValueInscnt s.freeCount
    thresh := Config.noValueThresh s.freeCount
    drops := Config.noValueDrops s.freeCount
    mem := storeOf s.config (Config.noValueStore s.freeCount)
    freeCount := s.freeCount + 1 }

/-- Hardware reset as an event (R250): `CFG`, `ERRS`, `LASTERR` cleared, no response offered, every
table register without a value, the store unspecified. DEDUCED, safe; log 10. -/
def hardReset (s : State) : State :=
  voidTable { s with cfg := false, errs := false, lasterr := .ok, rsp := none }

/-! ### The checks of R223 -/

/-- Step 2: refuse with `E_OPERAND` unless the static operand check passed. -/
def requireOperand (good : Bool) (s : State) (k : Result) : Result :=
  if good then k else .next (refuse .operand s)

/-- Step 3: refuse with `E_NOTABLE` unless a table exists. -/
def requireTable (s : State) (k : Result) : Result :=
  if s.cfg then k else .next (refuse .noTable s)

/-- Step 4: refuse with `E_RANGE` unless the bucket index is below `2*ISIZE` (R90). -/
def requireRange (idx : Nat) (s : State) (k : Result) : Result :=
  if idx < tableBuckets s.ibits then k else .next (refuse .range s)

/-- The buckets of the table lie in the store. It fails only in states R20 excludes; log 9. -/
def requireStore (s : State) (k : Result) : Result :=
  if s.ibits ≤ s.config.ibitsMax then k else .fault .tableBeyondStore

end Sys2Proof.Machine
end

