-- ==== Sys2Proof/Machine/Lifecycle.lean ====
section
/-! DEFINITION. Table lifecycle and register read: `CREATE`, `DESTROY`, `FLUSH`, `RDREG`
(`46_lifecycle.md` R195 to R211). -/

namespace Sys2Proof.Machine

/-- The smallest index width from `ib` on that gives `cap` slots, among the next `fuel` widths (R196). -/
def widthFrom : Nat → Nat → Nat → Nat
  | 0, ib, _ => ib
  | fuel + 1, ib, cap => if cap ≤ 42 * 2 ^ ib then ib else widthFrom fuel (ib + 1) cap

/-- The smallest `ib >= 1` with `42 * 2^ib >= cap` (R196); `cap < 2^64 <= 42 * 2^59`, so 58 steps from
1 always reach it. -/
def widthFor (cap : DWord) : Nat := widthFrom 58 1 cap.toNat

/-- The registers and buckets of a new table of index width `ib` with the seed drawn (R195, R40). -/
def newTable (ib : Nat) (draw : DWord) (s : State) : State :=
  { s with
    ibits := ib
    mem := clearBuckets s.mem (tableBuckets ib)
    seed := draw
    epoch := 1
    inscnt := 0
    thresh := threshOf ib
    drops := 0
    cfg := true }

/-- `CREATE cap` (R195): `E_EXISTS` first (R200), then `E_ALLOC` (R197). -/
def execCreate (cap : DWord) (s : State) : Result :=
  if s.cfg then .next (refuse .exist s)
  else
    let ib := widthFor cap
    if s.config.ibitsMax < ib then .next (refuse .alloc s)
    else .next (respond true (capacityOf ib) (newTable ib s.randIn s))

/-- `DESTROY` (R202): no table is left, and its registers and buckets have no value (R203, R36). -/
def execDestroy (arg : DWord) (s : State) : Result :=
  requireOperand (formatZOk arg) s (requireTable s (
    .next (respond false 0 (voidTable { s with cfg := false }))))

/-- `FLUSH` (R204): every bucket of the table zeroed, `EPOCH <- 1`, `INSCNT <- 0`; the rest is kept
(R205). -/
def execFlush (arg : DWord) (s : State) : Result :=
  requireOperand (formatZOk arg) s (requireTable s (requireStore s (
    .next (respond false 0
      { s with mem := clearBuckets s.mem (tableBuckets s.ibits), epoch := 1, inscnt := 0 }))))

/-- `RDREG reg` (R210): `STATUS` and `HWCFG` always, the other nine while a table exists. -/
def execRdreg (rsv : BitVec 56) (rn : BitVec 8) (s : State) : Result :=
  requireOperand (formatROk rsv rn) s (
    if rn.toNat < 2 then .next (respond false (readReg s rn.toNat) s)
    else requireTable s (.next (respond false (readReg s rn.toNat) s)))

end Sys2Proof.Machine
end

