-- ==== Sys2Proof/Machine/Codec.lean ====
section
/-! DEFINITION. The bucket codec and the scan (`41_bucket_codec.md` R115 to R125): 21 logical slots
and a stamp in sixteen 32-bit words. Every other file works on the logical sequence. -/

namespace Sys2Proof.Machine

/-- A logical bucket `(s, st)`: 21 slots in logical order and the aging stamp (R115). -/
structure LogicalBucket where
  /-- `s[0..20]`, most recently touched first, 0 meaning empty. -/
  slots : List Digest
  /-- `st`. -/
  stamp : Byte
deriving DecidableEq, Repr

/-- Direct slot `i` of bucket `b`, the high part of word `i` (R117). -/
def directSlot (m : Memory) (b i : Nat) : Digest := (memRead m (wordAddr b i)).extractLsb' 8 24

/-- The low byte of word `i` of bucket `b`: borrowed for words 0 to 14, the stamp for word 15 (R53). -/
def lowByte (m : Memory) (b i : Nat) : Byte := (memRead m (wordAddr b i)).extractLsb' 0 8

/-- Extended slot `j` of bucket `b`: the low bytes of words `3j`, `3j+1`, `3j+2`, most significant
first (R118, D2). -/
def extendedSlot (m : Memory) (b j : Nat) : Digest :=
  lowByte m b (3 * j) ++ lowByte m b (3 * j + 1) ++ lowByte m b (3 * j + 2)

/-- `Decode(b)` (R116). -/
@[irreducible] def decodeBucket (m : Memory) (b : Nat) : LogicalBucket where
  slots := (List.range 16).map (directSlot m b) ++ (List.range 5).map (extendedSlot m b)
  stamp := lowByte m b 15

/-- Byte `r` of a slot value, `r = 0` the most significant (R119). -/
def slotByte (d : Digest) (r : Nat) : Byte := d.extractLsb' (16 - 8 * r) 8

/-- Word `i` of the encoding of a logical bucket (R119). -/
def bucketWord (lb : LogicalBucket) (i : Nat) : Word :=
  lb.slots.getD i 0 ++
    (if i < 15 then slotByte (lb.slots.getD (16 + i / 3) 0) (i % 3) else lb.stamp)

/-- `Encode(b, s, st)`: write all sixteen words of bucket `b` (R119). -/
@[irreducible] def encodeBucket (m : Memory) (b : Nat) (lb : LogicalBucket) : Memory :=
  (List.range 16).foldl (fun m i => memWrite m (wordAddr b i) (bucketWord lb i)) m

/-- `Stamp(b)` (R121). -/
def stampOf (m : Memory) (b : Nat) : Byte := (memRead m (wordAddr b 15)).extractLsb' 0 8

/-- `SetStamp(b, v)`: bits 7:0 of word 15 become `v`, bits 31:8 stay (R121). -/
def setStamp (m : Memory) (b : Nat) (v : Byte) : Memory :=
  memWrite m (wordAddr b 15) ((memRead m (wordAddr b 15)).extractLsb' 8 24 ++ v)

/-- `Find(s, d)`: the smallest position that holds `d` (R122, D8). -/
def findSlot (slots : List Digest) (d : Digest) : Option Nat := slots.findIdx? (· == d)

/-- `EmptyCount(s)`: how many slots are 0; the stamp is not counted (R124). -/
def emptyCount (slots : List Digest) : Nat := slots.count 0

end Sys2Proof.Machine
end

