-- ==== Sys2Proof/Machine/Lru.lean ====
section
/-! DEFINITION. The slot rotator (`42_lru_reordering.md` R140 to R144) and the gap-closing shift of
`45_delete.md` R185, on the logical sequence, and the word-level views R141, R142, R186 that the
spec derives from them. The machine uses the logical definitions (R142: "a model implements R140"). -/

namespace Sys2Proof.Machine

/-- `ShiftBack(s, k, v)`: `v` at position 0, positions `0 .. k-1` one place back, position `k` gone,
the rest in place (R144). -/
def shiftBack (slots : List Digest) (k : Nat) (v : Digest) : List Digest :=
  v :: (slots.take k ++ slots.drop (k + 1))

/-- Positions after `k` one place forward, position `k` gone, the last position empty (R185). -/
def closeGap (slots : List Digest) (k : Nat) : List Digest :=
  slots.take k ++ slots.drop (k + 1) ++ [0]

/-- `Promote(b, k)`: the slot at `k` moves to position 0; the stamp is written back (R140). -/
def promote (m : Memory) (b k : Nat) : Memory :=
  let lb := decodeBucket m b
  encodeBucket m b { lb with slots := shiftBack lb.slots k (lb.slots.getD k 0) }

/-- `InsertFront(b, d)`: `d` at position 0, every slot one place back, the old last slot dropped; the
stamp is written back (R143). -/
def insertFront (m : Memory) (b : Nat) (d : Digest) : Memory :=
  let lb := decodeBucket m b
  encodeBucket m b { lb with slots := shiftBack lb.slots 20 d }

/-- `Compact(b, k)`: the slot at `k` removed, the gap closed; the stamp is written back (R185). -/
def compact (m : Memory) (b k : Nat) : Memory :=
  let lb := decodeBucket m b
  encodeBucket m b { lb with slots := closeGap lb.slots k }

/-! ### Word-level views: the sixteen words of the bucket before, the word at `i` after -/

/-- The high part of a bucket word, bits 31:8. -/
def highPart (w : Word) : Digest := w.extractLsb' 8 24

/-- The low byte of a bucket word, bits 7:0. -/
def lowPart (w : Word) : Byte := w.extractLsb' 0 8

/-- Hit in the direct region, `k <= 15` (R141): only the high parts of words 0 to `k` change. -/
def promoteDirectWord (w : Nat → Word) (k i : Nat) : Word :=
  if i = 0 then highPart (w k) ++ lowPart (w 0)
  else if i ≤ k then highPart (w (i - 1)) ++ lowPart (w i)
  else w i

/-- Low byte of word `i` after a hit at extended slot `j` (R142): extended slot 0 takes the old direct
slot 15, extended slots `1 .. j` take `0 .. j-1`, later ones and the stamp stay. -/
def promoteExtendedLow (w : Nat → Word) (j i : Nat) : Byte :=
  if i < 3 then slotByte (highPart (w 15)) i
  else if i < 3 * (j + 1) then lowPart (w (i - 3))
  else lowPart (w i)

/-- Hit in the extended region, `k = 16 + j` (R142): all high parts move down one word and the hit
value crosses into word 0. -/
def promoteExtendedWord (w : Nat → Word) (j i : Nat) : Word :=
  (if i = 0 then lowPart (w (3 * j)) ++ lowPart (w (3 * j + 1)) ++ lowPart (w (3 * j + 2))
    else highPart (w (i - 1))) ++ promoteExtendedLow w j i

/-- Low byte of word `i` after the removal of slot `k` (R186): extended slots from `k - 16` on (all of
them for a direct `k`) take the next one, extended slot 4 becomes 0, the stamp stays. -/
def compactLow (w : Nat → Word) (k i : Nat) : Byte :=
  if i = 15 then lowPart (w 15)
  else if 16 + i / 3 < k then lowPart (w i)
  else if i < 12 then lowPart (w (i + 3))
  else 0

/-- High part of word `i` after the removal of slot `k` (R186): words `k .. 14` take the next word's,
word 15 takes the old extended slot 0. -/
def compactHigh (w : Nat → Word) (k i : Nat) : Digest :=
  if i < k then highPart (w i)
  else if i < 15 then highPart (w (i + 1))
  else lowPart (w 0) ++ lowPart (w 1) ++ lowPart (w 2)

/-- The word at `i` after the removal of slot `k` (R186). -/
def compactWord (w : Nat → Word) (k i : Nat) : Word := compactHigh w k i ++ compactLow w k i

end Sys2Proof.Machine
end

