-- ==== Sys2Proof/Machine/Bucket.lean ====
section
/-! DEFINITION. The lookups of one bucket (`41_bucket_codec.md` R123, R125) and the bucket-level
commands `BLKUP`, `BLKUPC`, `RDW` (R126 to R128). -/

namespace Sys2Proof.Machine

/-- What a lookup gives: whether it hit, the empty count, and the store after it. -/
structure LookupResult where
  /-- The digest was among the 21 slots. -/
  found : Bool
  /-- `EmptyCount` over all 21 positions, hit or miss (R125, D9). -/
  empty : Nat
  /-- The store: promoted on a hit, unchanged on a miss. -/
  mem : Memory

/-- `LookupCountingEmpty(b, d)` (R125). -/
def lookupCountingEmpty (m : Memory) (b : Nat) (d : Digest) : LookupResult :=
  let lb := decodeBucket m b
  match findSlot lb.slots d with
  | none => { found := false, empty := emptyCount lb.slots, mem := m }
  | some k => { found := true, empty := emptyCount lb.slots, mem := promote m b k }

/-- `Lookup(b, d)`: the same scan and promotion, without the count (R123, R181). -/
def lookup (m : Memory) (b : Nat) (d : Digest) : Bool × Memory :=
  match findSlot (decodeBucket m b).slots d with
  | none => (false, m)
  | some k => (true, promote m b k)

/-- `BLKUP idx, dw` (R126). -/
def execBlkup (idx : BitVec 32) (d : Digest) (rsv : BitVec 8) (s : State) : Result :=
  requireOperand (formatBOk d rsv) s (requireTable s (requireRange idx.toNat s (requireStore s (
    let r := lookup s.mem idx.toNat d
    .next (respond r.1 0 (setMem s r.2))))))

/-- `BLKUPC idx, dw` (R127). -/
def execBlkupc (idx : BitVec 32) (d : Digest) (rsv : BitVec 8) (s : State) : Result :=
  requireOperand (formatBOk d rsv) s (requireTable s (requireRange idx.toNat s (requireStore s (
    let r := lookupCountingEmpty s.mem idx.toNat d
    .next (respond r.found (BitVec.ofNat 64 r.empty) (setMem s r.mem))))))

/-- `RDW idx, wn` (R128). -/
def execRdw (idx : BitVec 32) (rsv : BitVec 28) (wn : BitVec 4) (s : State) : Result :=
  requireOperand (formatMOk rsv) s (requireTable s (requireRange idx.toNat s (requireStore s (
    .next (respond false ((memRead s.mem (wordAddr idx.toNat wn.toNat)).setWidth 64) s)))))

end Sys2Proof.Machine
end

