-- ==== Sys2Proof/Machine/Derive.lean ====
section
/-! DEFINITION. Hash derivation (`40_hash_derivation.md`): two bucket indices and two digests from a
64-bit hash, and the commands `DERIV1`, `DERIV2`. -/

namespace Sys2Proof.Machine

/-- What `Derive(h)` returns (R100). -/
structure Candidates where
  /-- `index1`, in the first half. -/
  index1 : BitVec 32
  /-- `d1`, the digest that belongs with `index1` (R105). -/
  digest1 : Digest
  /-- `index2`, in the second half. -/
  index2 : BitVec 32
  /-- `d2`, the digest that belongs with `index2` (R105). -/
  digest2 : Digest
deriving DecidableEq, Repr

/-- The product of a hash and a multiplier, its low 64 bits (R12, R101). -/
def hashProduct (h mult : DWord) : DWord := h * mult

/-- The masked high bits of a product (R102, D6). -/
def indexBits (c : Config) (ibits : Nat) (p : DWord) : DWord := (p >>> c.indexShift) &&& imask ibits

/-- The low 24 bits of a product, 0 remapped to the sentinel (R104, D5). -/
def digestBits (c : Config) (p : DWord) : Digest :=
  if p.extractLsb' 0 24 = 0 then c.sentinel24 else p.extractLsb' 0 24

/-- `Derive(h)` (R107). -/
def derive (c : Config) (ibits : Nat) (h : DWord) : Candidates where
  index1 := (indexBits c ibits (hashProduct h c.mult1)).setWidth 32
  digest1 := digestBits c (hashProduct h c.mult1)
  index2 := (indexBits c ibits (hashProduct h c.mult2) ||| (imask ibits + 1)).setWidth 32
  digest2 := digestBits c (hashProduct h c.mult2)

/-- `DERIV1 h` (R108). -/
def execDeriv1 (h : DWord) (s : State) : Result :=
  requireTable s (
    let c := derive s.config s.ibits h
    .next (respond false (c.index1 ++ digestWord c.digest1) s))

/-- `DERIV2 h` (R109). -/
def execDeriv2 (h : DWord) (s : State) : Result :=
  requireTable s (
    let c := derive s.config s.ibits h
    .next (respond false (c.index2 ++ digestWord c.digest2) s))

end Sys2Proof.Machine
end

