-- ==== Sys2Proof/Machine/Table.lean ====
section
/-! DEFINITION. The table operations: `CHECK` (`44_check.md` R180), `SET` with its destination arbiter
and aging counter (`43_insert_eviction.md` R155 to R166), `DELETE` (`45_delete.md` R188). -/

namespace Sys2Proof.Machine

/-- `CHECK h` (R180): `index1` first; a hit there leaves `index2` alone (R181). -/
def execCheck (h : DWord) (s : State) : Result :=
  requireTable s (requireStore s (
    let c := derive s.config s.ibits h
    let r1 := lookup s.mem c.index1.toNat c.digest1
    if r1.1 then .next (respond true 0 (setMem s r1.2))
    else
      let r2 := lookup s.mem c.index2.toNat c.digest2
      .next (respond r2.1 0 (setMem s r2.2))))

/-- The destination an inserting `SET` chose (R166). -/
structure Destination where
  /-- The bucket, one of the two candidates. -/
  bucket : BitVec 32
  /-- The digest that belongs with it (R105). -/
  digest : Digest
  /-- Both candidates were full: a digest is lost and `DROPS` counts it (R161). -/
  drop : Bool
deriving DecidableEq, Repr

/-- The age of a bucket, `(EPOCH - stamp) mod 256` (R13, R160, D33). -/
def bucketAge (epoch stamp : Byte) : Byte := epoch - stamp

/-- The destination arbiter: step 3 of `SET` (R158 to R161, R166). -/
def arbitrate (c : Candidates) (e1 e2 : Nat) (epoch stamp1 stamp2 : Byte) : Destination :=
  if e1 > e2 then { bucket := c.index1, digest := c.digest1, drop := false }
  else if e2 > e1 then { bucket := c.index2, digest := c.digest2, drop := false }
  else if e1 > 0 then { bucket := c.index1, digest := c.digest1, drop := false }
  else if (bucketAge epoch stamp1).toNat > (bucketAge epoch stamp2).toNat then
    { bucket := c.index1, digest := c.digest1, drop := true }
  else if (bucketAge epoch stamp2).toNat > (bucketAge epoch stamp1).toNat then
    { bucket := c.index2, digest := c.digest2, drop := true }
  else if c.digest1.getLsbD 0 = false then
    { bucket := c.index1, digest := c.digest1, drop := true }
  else { bucket := c.index2, digest := c.digest2, drop := true }

/-- Count the drop of an eviction (R161). -/
def countDrop (drop : Bool) (s : State) : State :=
  if drop then { s with drops := s.drops + 1 } else s

/-- Steps 4 and 5, first half: the digest at the front of the chosen bucket, stamped with `EPOCH` as it
is before this command advances it (R162, R266). -/
def placeDigest (dst : Destination) (s : State) : State :=
  setMem s (setStamp (insertFront s.mem dst.bucket.toNat dst.digest) dst.bucket.toNat s.epoch)

/-- Step 5, second half: the insertion counter, and the aging counter once it exceeds `THRESH`
(R164). -/
def advanceAging (s : State) : State :=
  if s.thresh.toNat < (s.inscnt + 1).toNat then { s with inscnt := 0, epoch := s.epoch + 1 }
  else { s with inscnt := s.inscnt + 1 }

/-- `SET h` (R155). -/
def execSet (h : DWord) (s : State) : Result :=
  requireTable s (requireStore s (
    let c := derive s.config s.ibits h
    let r1 := lookupCountingEmpty s.mem c.index1.toNat c.digest1
    if r1.found then .next (respond true 0 (setMem s r1.mem))
    else
      let r2 := lookupCountingEmpty s.mem c.index2.toNat c.digest2
      if r2.found then .next (respond true 0 (setMem s r2.mem))
      else
        let dst := arbitrate c r1.empty r2.empty s.epoch (stampOf s.mem c.index1.toNat)
          (stampOf s.mem c.index2.toNat)
        .next (respond false 0 (advanceAging (placeDigest dst (countDrop dst.drop s))))))

/-- `DELETE h` (R188): the scan does not promote, and at most one slot is removed (R189). -/
def execDelete (h : DWord) (s : State) : Result :=
  requireTable s (requireStore s (
    let c := derive s.config s.ibits h
    match findSlot (decodeBucket s.mem c.index1.toNat).slots c.digest1 with
    | some k => .next (respond true 0 (setMem s (compact s.mem c.index1.toNat k)))
    | none =>
      match findSlot (decodeBucket s.mem c.index2.toNat).slots c.digest2 with
      | some k => .next (respond true 0 (setMem s (compact s.mem c.index2.toNat k)))
      | none => .next (respond false 0 s)))

end Sys2Proof.Machine
end

