-- ==== Sys2Proof/Machine/Dispatch.lean ====
section
/-! DEFINITION. One arm per command (`30_encoding.md` R75). -/

namespace Sys2Proof.Machine

def exec (i : Instr) (s : State) : Host.Outcome State Fault Refusal :=
  match i with
  | .create cap => Sys2Proof.Machine.execCreate cap s
  | .destroy arg => Sys2Proof.Machine.execDestroy arg s
  | .flush arg => Sys2Proof.Machine.execFlush arg s
  | .rdreg rsv rn => Sys2Proof.Machine.execRdreg rsv rn s
  | .check h => Sys2Proof.Machine.execCheck h s
  | .set h => Sys2Proof.Machine.execSet h s
  | .delete h => Sys2Proof.Machine.execDelete h s
  | .deriv1 h => Sys2Proof.Machine.execDeriv1 h s
  | .deriv2 h => Sys2Proof.Machine.execDeriv2 h s
  | .blkup idx d rsv => Sys2Proof.Machine.execBlkup idx d rsv s
  | .blkupc idx d rsv => Sys2Proof.Machine.execBlkupc idx d rsv s
  | .rdw idx rsv wn => Sys2Proof.Machine.execRdw idx rsv wn s

end Sys2Proof.Machine
end

