-- ==== Sys2Proof/Machine/HostPort.lean ====
section
/-! DEFINITION. What the host's next action does (`70_reset_and_hazards.md` R262) and what an issued
command word does (R263). -/

namespace Sys2Proof.Machine

/-- Take the host's next action off the list. A command word that was issued comes back to be run; any
other action has its effect here (R262). With no action left the block waits (R237; log 11). -/
def acceptAction (s : State) : Option CommandWord × State :=
  match s.inputs with
  | [] => (none, s)
  | .issue c :: rest => (some c, { s with inputs := rest })
  | .drive r :: rest => (none, { s with inputs := rest, randIn := r })
  | .take :: rest => (none, { s with inputs := rest, rsp := none })
  | .wait :: rest => (none, { s with inputs := rest })
  | .rst :: rest => (none, hardReset { s with inputs := rest })

/-- `Step(s, c, r)` of R263, the draw `r` being the value on `rand_in`: decode; an opcode outside the
map is refused with `E_ILLOP` (R84, R223 step 1); any other word is run. -/
def runCommand (c : CommandWord) (s : State) : Result :=
  match decode c with
  | .ok i => exec i s
  | .error _ => .next (refuse .illop s)

/-- The state with a command word placed as the host's very next action. -/
def issueNext (c : CommandWord) (s : State) : State := { s with inputs := .issue c :: s.inputs }

end Sys2Proof.Machine
end

