-- ==== Sys2Proof/Machine/Step.lean ====
section
/-! DEFINITION. One step: the host's next action (`70_reset_and_hazards.md` R262, R263). -/

namespace Sys2Proof.Machine

/-- One step of the block and its host. -/
def step (s : State) : Host.Outcome State Fault Refusal :=
  match acceptAction s with
  | (none, s') => .next s'
  | (some c, s') => runCommand c s'

/-- `s` with the command of a table row's bits placed where `step` takes its next command from: at the
head of the host's list (log 3). -/
def State.withFetchWord (s : State) (nbits w : Nat) : State := issueNext (tableWord nbits w) s

end Sys2Proof.Machine
end

