-- ==== Sys2Proof/Safety.lean ====
section
/-! DEFINITION. The terms the statements use: the invariant of a run (`10_state.md` R42 and the ranges
of R24 to R33), the order of the checks (`60_exceptions.md` R223), and which states the host cannot
tell apart (`70_reset_and_hazards.md` R264). Nothing here is part of the machine. -/

namespace Sys2Proof.Machine

/-! ### What a bucket holds -/

/-- The 21 logical slots of bucket `b` (R115). -/
def slotsOf (m : Memory) (b : Nat) : List Digest := (decodeBucket m b).slots

/-- R42 item 2: if slot `k` is empty then every slot after `k` is empty. -/
def OccupiedPrefix (slots : List Digest) : Prop :=
  ∀ i j, i < j → j < 21 → slots.getD i 0 = 0 → slots.getD j 0 = 0

/-- R42 item 3: no nonzero value occurs twice among the slots. -/
def NoDuplicate (slots : List Digest) : Prop :=
  ∀ i j, i < j → j < 21 → slots.getD i 0 ≠ 0 → slots.getD i 0 ≠ slots.getD j 0

/-- How many slots of the buckets `0 .. n-1` are occupied. -/
def occupiedBelow (m : Memory) (n : Nat) : Nat :=
  ((List.range n).map fun b => 21 - emptyCount (slotsOf m b)).sum

/-! ### What a command does to one bucket -/

/-- Every byte outside bucket `b` reads as before. -/
def OutsideBucketUnchanged (m m' : Memory) (b : Nat) : Prop :=
  ∀ a, (a < 64 * b ∨ 64 * b + 64 ≤ a) → readByte m' a = readByte m a

/-- The first slot of bucket `b` that holds `d` moved to position 0, those ahead of it moved back one
place, the stamp and every other bucket are as before (R140). -/
structure MovedToFront (m m' : Memory) (b : Nat) (d : Digest) : Prop where
  slots : slotsOf m' b = d :: (slotsOf m b).erase d
  stamp : stampOf m' b = stampOf m b
  outside : OutsideBucketUnchanged m m' b

/-- `d` stands at the front of bucket `b`, every old slot one place back, the old last slot gone; the
stamp is `v`; every other bucket is as before (R143, R162). -/
structure InsertedAtFront (m m' : Memory) (b : Nat) (d : Digest) (v : Byte) : Prop where
  slots : slotsOf m' b = d :: (slotsOf m b).take 20
  stamp : stampOf m' b = v
  outside : OutsideBucketUnchanged m m' b

/-- The first slot of bucket `b` that holds `d` is gone and the gap closed, the last slot empty; the
stamp and every other bucket are as before (R185). -/
structure RemovedAndCompacted (m m' : Memory) (b : Nat) (d : Digest) : Prop where
  slots : slotsOf m' b = (slotsOf m b).erase d ++ [0]
  stamp : stampOf m' b = stampOf m b
  outside : OutsideBucketUnchanged m m' b

/-- A table exists and lies in the store, the parameters are legal, the memory is in canonical form:
what the rules of files 40 to 46 take for granted of a configured block. -/
structure TableReady (s : State) : Prop where
  cfg : s.cfg = true
  legal : s.config.Legal
  ibits_pos : 1 ≤ s.ibits
  ibits_le : s.ibits ≤ s.config.ibitsMax
  mem_wf : Memory.wf s.mem = true

/-- The commands that need a table once their operand check has passed (R221, `E_NOTABLE`): all but
`CREATE` and `RDREG` of `STATUS` and `HWCFG`. -/
def needsTable : Instr → Bool
  | .create _ => false
  | .rdreg _ rn => decide (2 ≤ rn.toNat)
  | .destroy _ | .flush _ | .check _ | .set _ | .delete _ | .deriv1 _ | .deriv2 _ => true
  | .blkup _ _ _ | .blkupc _ _ _ | .rdw _ _ _ => true

/-! ### The invariant -/

/-- Every listed byte lies inside a store of `n` bytes (R50). -/
def Memory.Below (n : Nat) (m : Memory) : Prop := ∀ d ∈ m, d.1 < n

/-- What holds of the table registers and buckets while a table exists (R26, R32, R33, R42). -/
structure TableInv (s : State) : Prop where
  /-- `IBITS` is 1 to `IBITS_MAX` (R26). -/
  ibits_pos : 1 ≤ s.ibits
  /-- The table lies in the store (R197). -/
  ibits_le : s.ibits ≤ s.config.ibitsMax
  /-- `THRESH = CAPACITY div 16` (R33). -/
  thresh_eq : s.thresh = threshOf s.ibits
  /-- `INSCNT` is 0 to `THRESH` (R32). -/
  inscnt_le : s.inscnt.toNat ≤ s.thresh.toNat
  /-- R42 item 2, for every bucket of the table. -/
  prefix_ok : ∀ b < tableBuckets s.ibits, OccupiedPrefix (slotsOf s.mem b)
  /-- R42 item 3, for every bucket of the table. -/
  nodup_ok : ∀ b < tableBuckets s.ibits, NoDuplicate (slotsOf s.mem b)

/-- The invariant of every run. -/
structure StateInv (s : State) : Prop where
  /-- The parameters are legal (R9). -/
  legal : s.config.Legal
  /-- The store is in canonical form. -/
  mem_wf : Memory.wf s.mem = true
  /-- The store lists nothing outside itself (R50). -/
  mem_below : s.mem.Below (storeBytes s.config)
  /-- `LASTERR` is 0 exactly while no command was refused since reset (R24). -/
  errs_iff : s.errs = false ↔ s.lasterr = .ok
  /-- A refusal's response carries nothing but its code (R73). -/
  rsp_ok : ∀ r, s.rsp = some r → r.err ≠ .ok → r.res = false ∧ r.val = 0
  /-- While a table exists it is well-formed. -/
  table : s.cfg = true → TableInv s

/-! ### The order of the checks -/

/-- The first failing check of R223, steps 2 to 5, for a decoded command; `ok` when none fails. It is
written from R223's list, not from the meanings. Step 5 uses R197: the largest capacity that succeeds
is `42 * 2^IBITS_MAX`. -/
def firstFailingCheck (i : Instr) (s : State) : ErrCode :=
  if i.wf = false then .operand
  else
    match i with
    | .create cap =>
      if s.cfg then .exist else if 42 * 2 ^ s.config.ibitsMax < cap.toNat then .alloc else .ok
    | .rdreg _ rn => if rn = 0 ∨ rn = 1 then .ok else if s.cfg then .ok else .noTable
    | .blkup idx _ _ | .blkupc idx _ _ | .rdw idx _ _ =>
      if s.cfg = false then .noTable else if 2 * 2 ^ s.ibits ≤ idx.toNat then .range else .ok
    | .destroy _ | .flush _ | .check _ | .set _ | .delete _ | .deriv1 _ | .deriv2 _ =>
      if s.cfg then .ok else .noTable

/-! ### What the host can tell apart -/

/-- Two states that differ at most in what R264 calls arbitrary: the table registers and the table's
buckets while no table exists, and the buckets outside the table at any time. -/
structure SameVisible (s t : State) : Prop where
  config : s.config = t.config
  inputs : s.inputs = t.inputs
  randIn : s.randIn = t.randIn
  rsp : s.rsp = t.rsp
  cfg : s.cfg = t.cfg
  errs : s.errs = t.errs
  lasterr : s.lasterr = t.lasterr
  ibits : s.cfg = true → s.ibits = t.ibits
  seed : s.cfg = true → s.seed = t.seed
  epoch : s.cfg = true → s.epoch = t.epoch
  inscnt : s.cfg = true → s.inscnt = t.inscnt
  thresh : s.cfg = true → s.thresh = t.thresh
  drops : s.cfg = true → s.drops = t.drops
  words : s.cfg = true → ∀ a < 16 * tableBuckets s.ibits, memRead s.mem a = memRead t.mem a

end Sys2Proof.Machine
end

