-- ==== Sys2Proof/Certificates/Slice0/Obligations.lean ====
section
/-! DEFINITION. The statements for the provers, from the numbered rules of spec/. -/

open Sys2Proof Sys2Proof.Machine

/-! ### Encoding and decoding (`30_encoding.md`) -/

/-- `30_encoding.md` R70, R75, R76, R83: no bit of an operand is dropped, moved or read twice. Every
command, with every operand, decodes from its own word; every word that decodes is its command's. -/
def Obligations.EncodingAndDecodingAgree : Prop :=
  (∀ i : Instr, decode (encode i) = .ok i) ∧
    ∀ (c : CommandWord) (i : Instr), decode c = .ok i → encode i = c

/-- R84, R92: a word is a command exactly when its `OP` is one of the twelve opcodes, and then its
opcode and operand are the word's own; any other word is an illegal opcode, by name. -/
def Obligations.EveryWordIsACommandOrAnIllegalOpcode : Prop :=
  ∀ c : CommandWord,
    (opField c ∈ [0x01#8, 0x02, 0x03, 0x04, 0x10, 0x11, 0x12, 0x20, 0x21, 0x30, 0x31, 0x32] ∧
      ∃ i, decode c = .ok i ∧ opcodeOf i = opField c ∧ operandOf i = argField c) ∨
    (opField c ∉ [0x01#8, 0x02, 0x03, 0x04, 0x10, 0x11, 0x12, 0x20, 0x21, 0x30, 0x31, 0x32] ∧
      decode c = .error (.illegalOpcode (opField c)))

/-- R85 to R89 on the number `ARG`: which operands are well-formed, format by format. -/
def Obligations.OperandChecksReadTheirBits : Prop :=
  ∀ (c : CommandWord) (i : Instr), decode c = .ok i →
    let op := (opField c).toNat
    let arg := (argField c).toNat
    (i.wf = true ↔
      if op = 0x02 ∨ op = 0x03 then arg = 0
      else if op = 0x04 then arg / 2 ^ 8 = 0 ∧ arg % 2 ^ 8 ≤ 10
      else if op = 0x30 ∨ op = 0x31 then arg % 2 ^ 8 = 0 ∧ arg / 2 ^ 8 % 2 ^ 24 ≠ 0
      else if op = 0x32 then arg / 2 ^ 4 % 2 ^ 28 = 0
      else True)

/-- Words of `95_test_vectors.md`, one for each family of R75, decode to the commands they stand for. -/
def Obligations.SampleWordsDecode : Prop :=
  decode 0x010000000000000054 = .ok (.create 84) ∧
  decode 0x04000000000000000A = .ok (.rdreg 0 10) ∧
  decode 0x110000000000666F6F = .ok (.set 0x666F6F) ∧
  decode 0x210000000000000001 = .ok (.deriv2 1) ∧
  decode 0x3000000000A3B3C300 = .ok (.blkup 0 0xA3B3C3 0) ∧
  decode 0x32000000030000000F = .ok (.rdw 3 0 15) ∧
  decode 0xFF0000000000001234 = .error (.illegalOpcode 0xFF)

/-- R73: the response word holds the error code, the result bit and the value in their places. -/
def Obligations.ResponseWordHoldsItsFields : Prop :=
  ∀ r : Response, (responseWord r).extractLsb' 65 4 = errCode r.err ∧
    (responseWord r).getLsbD 64 = r.res ∧ (responseWord r).extractLsb' 0 64 = r.val

/-! ### The step (`70_reset_and_hazards.md`) -/

/-- R262, R263: when the host's next action issues a word that decodes to a command, the step is that
command's, the action taken off the host's list; nothing else is added around it. -/
def Obligations.StepRunsTheDecodedCommand : Prop :=
  ∀ (s : State) (c : CommandWord) (rest : List HostAction) (i : Instr),
    s.inputs = .issue c :: rest → decode c = .ok i → step s = exec i { s with inputs := rest }

/-- R84, R222: an illegal opcode is refused with `E_ILLOP`, whatever the operand and the state. -/
def Obligations.StepRefusesIllegalOpcodes : Prop :=
  ∀ (s : State) (c : CommandWord) (rest : List HostAction),
    s.inputs = .issue c :: rest →
    opField c ∉ [0x01#8, 0x02, 0x03, 0x04, 0x10, 0x11, 0x12, 0x20, 0x21, 0x30, 0x31, 0x32] →
    step s = .next { s with
      inputs := rest, errs := true, lasterr := .illop, rsp := some ⟨.illop, false, 0⟩ }

/-- R262: what the host's other actions do. Waiting, and having nothing to do, change nothing; driving
`rand_in` changes the port only; taking the response changes only what is offered; `rst` clears `CFG`,
`ERRS`, `LASTERR` and offers no response (R250). The host's list and ports are the model's own (log 3). -/
def Obligations.HostActionsDoWhatTheTableSays : Prop :=
  ∀ (s : State) (rest : List HostAction),
    (s.inputs = [] → step s = .next s) ∧
    (s.inputs = .wait :: rest → step s = .next { s with inputs := rest }) ∧
    (∀ r, s.inputs = .drive r :: rest → step s = .next { s with inputs := rest, randIn := r }) ∧
    (s.inputs = .take :: rest → step s = .next { s with inputs := rest, rsp := none }) ∧
    (s.inputs = .rst :: rest → ∃ t, step s = .next t ∧ t.cfg = false ∧ t.errs = false ∧
      t.lasterr = .ok ∧ t.rsp = none ∧ t.config = s.config ∧ t.inputs = rest ∧ t.randIn = s.randIn)

/-- R39, R250: what hardware reset leaves in the state the spec gives a value: no table, no refusal
recorded, and so `STATUS` reads 0; no response offered. -/
def Obligations.ResetLeavesNoTable : Prop :=
  State.reset.cfg = false ∧ State.reset.errs = false ∧ State.reset.lasterr = .ok ∧
    State.reset.rsp = none ∧ statusWord State.reset = 0

/-! ### Refusals (`60_exceptions.md`) -/

/-- R220, R222, R223: a command is executed exactly when no check of R223 fails, and then changes
neither `ERRS` nor `LASTERR`; otherwise it is refused with the first failing check's code, and then
nothing else changes. Together: there is no third outcome. -/
def Obligations.FirstFailingCheckDecidesTheOutcome : Prop :=
  ∀ (i : Instr) (s : State), s.config.Legal → (s.cfg = true → s.ibits ≤ s.config.ibitsMax) →
    (firstFailingCheck i s = .ok → ∃ t r, exec i s = .next t ∧ t.rsp = some r ∧ r.err = .ok ∧
      t.errs = s.errs ∧ t.lasterr = s.lasterr) ∧
    (firstFailingCheck i s ≠ .ok → exec i s = .next { s with
      errs := true, lasterr := firstFailingCheck i s,
      rsp := some ⟨firstFailingCheck i s, false, 0⟩ })

/-- R239: which codes each command can return, in every state. -/
def Obligations.RefusalCodesAreThoseOfTheMatrix : Prop :=
  ∀ (i : Instr) (s t : State), exec i s = .next t → ∃ r, t.rsp = some r ∧
    match i with
    | .create _ => r.err ∈ [ErrCode.ok, .exist, .alloc]
    | .destroy _ | .flush _ => r.err ∈ [ErrCode.ok, .operand, .noTable]
    | .rdreg _ rn =>
      if rn.toNat ≤ 1 then r.err ∈ [ErrCode.ok, .operand]
      else if rn.toNat ≤ 10 then r.err ∈ [ErrCode.ok, .operand, .noTable]
      else r.err = .operand
    | .check _ | .set _ | .delete _ | .deriv1 _ | .deriv2 _ => r.err ∈ [ErrCode.ok, .noTable]
    | .blkup _ _ _ | .blkupc _ _ _ | .rdw _ _ _ =>
      r.err ∈ [ErrCode.ok, .operand, .noTable, .range]

/-- R231: the configured and unconfigured states, complete, but for hardware reset. -/
def Obligations.OnlyCreateAndDestroyMoveCfg : Prop :=
  ∀ (i : Instr) (s t : State), s.config.Legal → exec i s = .next t →
    (s.cfg = false → (t.cfg = true ↔
      ∃ cap, i = .create cap ∧ cap.toNat ≤ 42 * 2 ^ s.config.ibitsMax)) ∧
    (s.cfg = true → (t.cfg = false ↔ i = .destroy 0))

/-! ### The whole machine -/

/-- R42 with the ranges of R20 and R24 to R33: the invariant that every step keeps, commands and host
actions alike. -/
def Obligations.EveryStepKeepsTheInvariant : Prop :=
  ∀ s t : State, StateInv s → step s = .next t → StateInv t

/-- The invariant holds right after reset. It rests on the model's reset values of log 1, log 2 and
log 4 only where the spec gives none. -/
def Obligations.TheInvariantHoldsAtReset : Prop := StateInv State.reset

/-- R220, R263: in a state with the invariant a step always gives a next state; no command hangs or
stops the block. -/
def Obligations.NoStepStopsTheBlock : Prop :=
  ∀ s : State, StateInv s → ∃ t, step s = .next t

/-- R264 (V1 to V3): two states that differ only in what is arbitrary take steps to states that differ
only in what is arbitrary; so no response ever depends on it. -/
def Obligations.ArbitraryStateIsNeverObserved : Prop :=
  ∀ s t : State, s.config.Legal → (s.cfg = true → s.ibits ≤ s.config.ibitsMax) →
    Memory.wf s.mem = true → Memory.wf t.mem = true → SameVisible s t →
    ∃ s' t', step s = .next s' ∧ step t = .next t' ∧ SameVisible s' t'

/-- R264, R30, R198: of the seed and of the value on `rand_in`, only `RDREG SEED` tells anything. Any
other command, run with another seed and another draw, gives the same response and the same state but
for those two. -/
def Obligations.OnlyReadingSeedDependsOnTheDraw : Prop :=
  ∀ (i : Instr) (s t : State) (seed draw : DWord), i ≠ .rdreg 0 6 → exec i s = .next t →
    ∃ seed', exec i { s with seed := seed, randIn := draw } =
      .next { t with seed := seed', randIn := draw }

/-- R36: which registers each command can change, in every state; a command that only reads leaves the
store alone. What `DESTROY` leaves has no value. -/
def Obligations.CommandsWriteOnlyWhatTheTableLists : Prop :=
  ∀ (i : Instr) (s t : State), exec i s = .next t →
    (t.config = s.config ∧ t.inputs = s.inputs ∧ t.randIn = s.randIn) ∧
    ((∀ cap, i ≠ .create cap) → (∀ arg, i ≠ .destroy arg) →
      t.cfg = s.cfg ∧ t.ibits = s.ibits ∧ t.seed = s.seed ∧ t.thresh = s.thresh ∧
      ((∀ h, i ≠ .set h) → t.drops = s.drops ∧
        ((∀ arg, i ≠ .flush arg) → t.epoch = s.epoch ∧ t.inscnt = s.inscnt))) ∧
    ((∃ rsv rn, i = .rdreg rsv rn) ∨ (∃ idx rsv wn, i = .rdw idx rsv wn) ∨
      (∃ h, i = .deriv1 h) ∨ (∃ h, i = .deriv2 h) → t.mem = s.mem)

/-! ### The bucket codec (`41_bucket_codec.md`) -/

/-- R53, R116 to R118, R121: where every bit of a slot and of the stamp lies in the sixteen words. -/
def Obligations.DecodeReadsTheLayout : Prop :=
  ∀ (m : Memory) (b : Nat), (slotsOf m b).length = 21 ∧
    (∀ i < 16, (slotsOf m b).getD i 0 = (memRead m (16 * b + i)).extractLsb' 8 24) ∧
    (∀ j < 5, (slotsOf m b).getD (16 + j) 0 =
      (memRead m (16 * b + 3 * j)).extractLsb' 0 8 ++
        (memRead m (16 * b + (3 * j + 1))).extractLsb' 0 8 ++
        (memRead m (16 * b + (3 * j + 2))).extractLsb' 0 8) ∧
    (decodeBucket m b).stamp = (memRead m (16 * b + 15)).extractLsb' 0 8 ∧
    stampOf m b = (memRead m (16 * b + 15)).extractLsb' 0 8

/-- R115: the codec is a bijection between logical buckets and sixteen words. -/
def Obligations.CodecIsABijection : Prop :=
  ∀ w : Nat → Word, ∃ lb : LogicalBucket, lb.slots.length = 21 ∧
    (∀ i < 16, bucketWord lb i = w i) ∧
    ∀ lb' : LogicalBucket, lb'.slots.length = 21 → (∀ i < 16, bucketWord lb' i = w i) → lb' = lb

/-- R195, R204: the zeroing sweep is the loop of word writes the rules give. -/
def Obligations.SweepIsTheLoopOfWordWrites : Prop :=
  ∀ (m : Memory) (n : Nat), Memory.wf m = true →
    clearBuckets m n = (List.range (16 * n)).foldl (fun m a => memWrite m a 0) m

/-! ### The slot rotator (`42_lru_reordering.md`, `45_delete.md`) -/

/-- R141: a hit in the direct region changes the high parts of words 0 to `k` as the word-level
procedure says, and no other word of the bucket. -/
def Obligations.PromotionInTheDirectRegionByWords : Prop :=
  ∀ (m : Memory) (b k : Nat), Memory.wf m = true → k ≤ 15 → ∀ i < 16,
    memRead (promote m b k) (wordAddr b i) =
      promoteDirectWord (fun x => memRead m (wordAddr b x)) k i

/-- R142: a hit in the extended region does what the word-level procedure says. -/
def Obligations.PromotionInTheExtendedRegionByWords : Prop :=
  ∀ (m : Memory) (b j : Nat), Memory.wf m = true → j ≤ 4 → ∀ i < 16,
    memRead (promote m b (16 + j)) (wordAddr b i) =
      promoteExtendedWord (fun x => memRead m (wordAddr b x)) j i

/-- R186: compaction does what the word-level procedure says. -/
def Obligations.CompactionByWords : Prop :=
  ∀ (m : Memory) (b k : Nat), Memory.wf m = true → k ≤ 20 → ∀ i < 16,
    memRead (compact m b k) (wordAddr b i) = compactWord (fun x => memRead m (wordAddr b x)) k i

/-- R145 items 1, 2 and 4: promotion permutes the 21 slots, keeps the empty count, the relative order
of the others and both bucket invariants, and touches neither the stamp nor another bucket. -/
def Obligations.PromotionPermutesTheSlots : Prop :=
  ∀ (m : Memory) (b k : Nat), Memory.wf m = true → k ≤ 20 →
    (slotsOf (promote m b k) b).Perm (slotsOf m b) ∧
    emptyCount (slotsOf (promote m b k) b) = emptyCount (slotsOf m b) ∧
    (slotsOf (promote m b k) b).getD 0 0 = (slotsOf m b).getD k 0 ∧
    (slotsOf (promote m b k) b).eraseIdx 0 = (slotsOf m b).eraseIdx k ∧
    (NoDuplicate (slotsOf m b) → NoDuplicate (slotsOf (promote m b k) b)) ∧
    ((slotsOf m b).getD k 0 ≠ 0 → OccupiedPrefix (slotsOf m b) →
      OccupiedPrefix (slotsOf (promote m b k) b)) ∧
    stampOf (promote m b k) b = stampOf m b ∧ OutsideBucketUnchanged m (promote m b k) b

/-- R145 item 3: on a bucket with the occupied prefix, insertion at the front loses no digest while
there is room and exactly the last one when there is none. -/
def Obligations.InsertFrontLosesOnlyTheLastOfAFullBucket : Prop :=
  ∀ (m : Memory) (b : Nat) (d : Digest), Memory.wf m = true → d ≠ 0 →
    OccupiedPrefix (slotsOf m b) →
    (0 < emptyCount (slotsOf m b) → (slotsOf m b).getD 20 0 = 0 ∧
      emptyCount (slotsOf (insertFront m b d) b) + 1 = emptyCount (slotsOf m b)) ∧
    (emptyCount (slotsOf m b) = 0 → (slotsOf m b).getD 20 0 ≠ 0 ∧
      emptyCount (slotsOf (insertFront m b d) b) = 0) ∧
    slotsOf (insertFront m b d) b = d :: (slotsOf m b).take 20 ∧
    OccupiedPrefix (slotsOf (insertFront m b d) b)

/-- R187: compaction raises the empty count by one and keeps both bucket invariants. -/
def Obligations.CompactionKeepsTheBucketInvariants : Prop :=
  ∀ (m : Memory) (b k : Nat), Memory.wf m = true → k ≤ 20 → (slotsOf m b).getD k 0 ≠ 0 →
    OccupiedPrefix (slotsOf m b) → NoDuplicate (slotsOf m b) →
    emptyCount (slotsOf (compact m b k) b) = emptyCount (slotsOf m b) + 1 ∧
    OccupiedPrefix (slotsOf (compact m b k) b) ∧ NoDuplicate (slotsOf (compact m b k) b) ∧
    (slotsOf (compact m b k) b) = (slotsOf m b).eraseIdx k ++ [0] ∧
    stampOf (compact m b k) b = stampOf m b ∧ OutsideBucketUnchanged m (compact m b k) b

/-! ### Hash derivation (`40_hash_derivation.md`) -/

/-- R102, R103: the two indices as numbers, one in each half of the table. -/
def Obligations.IndicesLieInOppositeHalves : Prop :=
  ∀ (c : Config) (ib : Nat) (h : DWord), c.Legal → 1 ≤ ib → ib ≤ c.ibitsMax →
    (derive c ib h).index1.toNat =
      h.toNat * c.mult1.toNat % 2 ^ 64 / 2 ^ c.indexShift % 2 ^ ib ∧
    (derive c ib h).index2.toNat =
      2 ^ ib + h.toNat * c.mult2.toNat % 2 ^ 64 / 2 ^ c.indexShift % 2 ^ ib ∧
    (derive c ib h).index1.toNat < 2 ^ ib ∧
    2 ^ ib ≤ (derive c ib h).index2.toNat ∧ (derive c ib h).index2.toNat < 2 * 2 ^ ib

/-- R104: the two digests as numbers, and that neither is ever 0. -/
def Obligations.DigestsAreTheLowBitsAndNeverZero : Prop :=
  ∀ (c : Config) (ib : Nat) (h : DWord), c.Legal →
    ((derive c ib h).digest1.toNat =
      if h.toNat * c.mult1.toNat % 2 ^ 24 = 0 then c.sentinel24.toNat
      else h.toNat * c.mult1.toNat % 2 ^ 24) ∧
    ((derive c ib h).digest2.toNat =
      if h.toNat * c.mult2.toNat % 2 ^ 24 = 0 then c.sentinel24.toNat
      else h.toNat * c.mult2.toNat % 2 ^ 24) ∧
    (derive c ib h).digest1 ≠ 0 ∧ (derive c ib h).digest2 ≠ 0

/-- R110: the digests depend on the low 24 bits of the hash alone, two hashes agree in `p1[23:0]`
exactly when they agree in their own low 24 bits, and then they agree in `p2[23:0]` too. -/
def Obligations.DigestsDependOnTheLow24BitsOnly : Prop :=
  ∀ (c : Config) (ib : Nat) (h h' : DWord), c.Legal →
    (h.extractLsb' 0 24 = h'.extractLsb' 0 24 →
      (derive c ib h).digest1 = (derive c ib h').digest1 ∧
      (derive c ib h).digest2 = (derive c ib h').digest2) ∧
    ((hashProduct h c.mult1).extractLsb' 0 24 = (hashProduct h' c.mult1).extractLsb' 0 24 ↔
      h.extractLsb' 0 24 = h'.extractLsb' 0 24) ∧
    ((hashProduct h c.mult1).extractLsb' 0 24 = (hashProduct h' c.mult1).extractLsb' 0 24 →
      (hashProduct h c.mult2).extractLsb' 0 24 = (hashProduct h' c.mult2).extractLsb' 0 24)

/-- R12, R107: multiplication by a legal multiplier is a bijection on hashes, and so every pair of a
first index and a nonzero first digest is reached by some hash. -/
def Obligations.EveryFirstCandidateIsReached : Prop :=
  ∀ (c : Config) (ib : Nat), c.Legal → 1 ≤ ib → ib ≤ c.ibitsMax →
    Function.Bijective (fun h => hashProduct h c.mult1) ∧
    ∀ (x : Nat) (d : Digest), x < 2 ^ ib → d ≠ 0 →
      ∃ h, (derive c ib h).index1.toNat = x ∧ (derive c ib h).digest1 = d

/-- R108, R109: `DERIV1` and `DERIV2` answer the index, the digest and a zero byte, and change nothing
but the response. -/
def Obligations.DerivCommandsShowTheCandidates : Prop :=
  ∀ (h : DWord) (s : State), TableReady s →
    let p1 := h.toNat * s.config.mult1.toNat % 2 ^ 64
    let p2 := h.toNat * s.config.mult2.toNat % 2 ^ 64
    let i1 := p1 / 2 ^ s.config.indexShift % 2 ^ s.ibits
    let i2 := 2 ^ s.ibits + p2 / 2 ^ s.config.indexShift % 2 ^ s.ibits
    let d1 := if p1 % 2 ^ 24 = 0 then s.config.sentinel24.toNat else p1 % 2 ^ 24
    let d2 := if p2 % 2 ^ 24 = 0 then s.config.sentinel24.toNat else p2 % 2 ^ 24
    exec (.deriv1 h) s = .next { s with
      rsp := some ⟨.ok, false, BitVec.ofNat 64 (i1 * 2 ^ 32 + d1 * 2 ^ 8)⟩ } ∧
    exec (.deriv2 h) s = .next { s with
      rsp := some ⟨.ok, false, BitVec.ofNat 64 (i2 * 2 ^ 32 + d2 * 2 ^ 8)⟩ }

/-- R81: the value either derivation command returns is a well-formed operand of `BLKUP` for the same
table, in range, and so runs. -/
def Obligations.DerivedValueIsABlkupOperand : Prop :=
  ∀ (h : DWord) (s : State), TableReady s →
    ∀ v ∈ [(derive s.config s.ibits h).index1 ++ digestWord (derive s.config s.ibits h).digest1,
      (derive s.config s.ibits h).index2 ++ digestWord (derive s.config s.ibits h).digest2],
    ∃ i t found, decode ((0x30#8 ++ v : CommandWord)) = .ok i ∧ i.wf = true ∧
      exec i s = .next t ∧ t.rsp = some ⟨.ok, found, 0⟩

/-! ### Bucket-level commands (`41_bucket_codec.md`) -/

/-- R126, R127: a lookup of a nonzero digest in a bucket of the table. A hit moves the digest to the
front of that bucket; a miss changes nothing; no register changes. `BLKUPC` also gives the number of
empty slots. -/
def Obligations.BucketLookupsPromoteOnAHit : Prop :=
  ∀ (idx : BitVec 32) (d : Digest) (s : State), TableReady s → d ≠ 0 →
    idx.toNat < 2 * 2 ^ s.ibits →
    ∃ m, exec (.blkup idx d 0) s = .next { s with
        mem := m, rsp := some ⟨.ok, decide (d ∈ slotsOf s.mem idx.toNat), 0⟩ } ∧
      exec (.blkupc idx d 0) s = .next { s with
        mem := m
        rsp := some ⟨.ok, decide (d ∈ slotsOf s.mem idx.toNat),
          BitVec.ofNat 64 ((slotsOf s.mem idx.toNat).count 0)⟩ } ∧
      Memory.wf m = true ∧
      (d ∈ slotsOf s.mem idx.toNat → MovedToFront s.mem m idx.toNat d) ∧
      (d ∉ slotsOf s.mem idx.toNat → m = s.mem)

/-- R128: `RDW` reads word `wn` of bucket `idx` and changes nothing but the response. -/
def Obligations.RdwReadsOneWord : Prop :=
  ∀ (idx : BitVec 32) (wn : BitVec 4) (s : State), TableReady s → idx.toNat < 2 * 2 ^ s.ibits →
    exec (.rdw idx 0 wn) s = .next { s with
      rsp := some ⟨.ok, false, (memRead s.mem (16 * idx.toNat + wn.toNat)).setWidth 64⟩ }

/-! ### Table operations (`43_insert_eviction.md`, `44_check.md`, `45_delete.md`) -/

/-- R180 to R183: `CHECK` answers 1 exactly when one of the candidate buckets holds the paired digest;
`index1` first, and then `index2` is not touched; a hit is promoted; a miss changes no state; no
register changes. -/
def Obligations.CheckAnswersMembership : Prop :=
  ∀ (h : DWord) (s : State), TableReady s →
    let c := derive s.config s.ibits h
    let b1 := c.index1.toNat
    let b2 := c.index2.toNat
    ∃ m, exec (.check h) s = .next { s with
        mem := m
        rsp := some ⟨.ok, decide (c.digest1 ∈ slotsOf s.mem b1 ∨ c.digest2 ∈ slotsOf s.mem b2), 0⟩ } ∧
      Memory.wf m = true ∧
      (c.digest1 ∈ slotsOf s.mem b1 → MovedToFront s.mem m b1 c.digest1) ∧
      (c.digest1 ∉ slotsOf s.mem b1 → c.digest2 ∈ slotsOf s.mem b2 →
        MovedToFront s.mem m b2 c.digest2) ∧
      (c.digest1 ∉ slotsOf s.mem b1 → c.digest2 ∉ slotsOf s.mem b2 → m = s.mem)

/-- R184: a second `CHECK` of the same hash gives the same answer and changes nothing more. -/
def Obligations.RepeatedCheckChangesNothing : Prop :=
  ∀ (h : DWord) (s t : State), TableReady s → exec (.check h) s = .next t →
    exec (.check h) t = .next t

/-- R157: a `SET` whose digest is found inserts nothing: it promotes as `CHECK` does, and no stamp, no
counter and no register changes. -/
def Obligations.SetOfAPresentDigestOnlyPromotes : Prop :=
  ∀ (h : DWord) (s : State), TableReady s →
    let c := derive s.config s.ibits h
    let b1 := c.index1.toNat
    let b2 := c.index2.toNat
    (c.digest1 ∈ slotsOf s.mem b1 ∨ c.digest2 ∈ slotsOf s.mem b2) →
    ∃ m, exec (.set h) s = .next { s with mem := m, rsp := some ⟨.ok, true, 0⟩ } ∧
      Memory.wf m = true ∧
      (c.digest1 ∈ slotsOf s.mem b1 → MovedToFront s.mem m b1 c.digest1) ∧
      (c.digest1 ∉ slotsOf s.mem b1 → MovedToFront s.mem m b2 c.digest2)

/-- R155, R158 to R162, R164, R166: a `SET` whose digest is in neither candidate bucket. It chooses
the first bucket when that has more empty slots, or as many but at least one, or when both are full and
it is the staler one, or as stale and bit 0 of `d1` is 0; otherwise the second. It inserts the paired
digest there at the front with the stamp `EPOCH`, counts a drop exactly when both were full, and
advances the insertion counter and, past `THRESH`, the aging counter. -/
def Obligations.SetInsertsWhereTheArbiterSays : Prop :=
  ∀ (h : DWord) (s : State), TableReady s →
    let c := derive s.config s.ibits h
    let b1 := c.index1.toNat
    let b2 := c.index2.toNat
    c.digest1 ∉ slotsOf s.mem b1 → c.digest2 ∉ slotsOf s.mem b2 →
    let e1 := (slotsOf s.mem b1).count 0
    let e2 := (slotsOf s.mem b2).count 0
    let a1 := (s.epoch.toNat + 256 - (stampOf s.mem b1).toNat) % 256
    let a2 := (s.epoch.toNat + 256 - (stampOf s.mem b2).toNat) % 256
    let first := e2 < e1 ∨ (e1 = e2 ∧ 0 < e1) ∨
      (e1 = 0 ∧ e2 = 0 ∧ (a2 < a1 ∨ (a1 = a2 ∧ c.digest1.getLsbD 0 = false)))
    ∃ b d m,
      ((first ∧ b = b1 ∧ d = c.digest1) ∨ (¬first ∧ b = b2 ∧ d = c.digest2)) ∧
      Memory.wf m = true ∧ InsertedAtFront s.mem m b d s.epoch ∧
      exec (.set h) s = .next { s with
        mem := m
        rsp := some ⟨.ok, false, 0⟩
        drops := if e1 = 0 ∧ e2 = 0 then s.drops + 1 else s.drops
        inscnt := if s.thresh.toNat < (s.inscnt + 1).toNat then 0 else s.inscnt + 1
        epoch := if s.thresh.toNat < (s.inscnt + 1).toNat then s.epoch + 1 else s.epoch }

/-- R183, property T2 of `95_test_vectors.md`: a `CHECK` directly after a `SET` of the same hash always
answers 1, also in a full table. -/
def Obligations.CheckAfterSetAlwaysHits : Prop :=
  ∀ (h : DWord) (s t : State), TableReady s → exec (.set h) s = .next t →
    ∃ u, exec (.check h) t = .next u ∧ u.rsp = some ⟨.ok, true, 0⟩

/-- R165, property T1 of `95_test_vectors.md`: a second `SET` directly after a first answers 1 and
changes nothing but the response. -/
def Obligations.SecondSetChangesNothing : Prop :=
  ∀ (h : DWord) (s t : State), TableReady s → exec (.set h) s = .next t →
    exec (.set h) t = .next { t with rsp := some ⟨.ok, true, 0⟩ }

/-- R163: `DROPS` counts exactly the digests that insertion discards. A `SET` that answers 0 either
adds one occupied slot to the table and no drop, or one drop and no occupied slot; a `SET` that answers
1 adds neither. -/
def Obligations.DropsCountTheDiscardedDigests : Prop :=
  ∀ (h : DWord) (s t : State), StateInv s → s.cfg = true → exec (.set h) s = .next t →
    (t.rsp = some ⟨.ok, false, 0⟩ ∧ t.drops = s.drops ∧
      occupiedBelow t.mem (tableBuckets t.ibits) =
        occupiedBelow s.mem (tableBuckets s.ibits) + 1) ∨
    (t.rsp = some ⟨.ok, false, 0⟩ ∧ t.drops = s.drops + 1 ∧
      occupiedBelow t.mem (tableBuckets t.ibits) = occupiedBelow s.mem (tableBuckets s.ibits)) ∨
    (t.rsp = some ⟨.ok, true, 0⟩ ∧ t.drops = s.drops ∧
      occupiedBelow t.mem (tableBuckets t.ibits) = occupiedBelow s.mem (tableBuckets s.ibits))

/-- R163, property T3 of `95_test_vectors.md`, one step of it: while `DROPS` does not count, no command
but `FLUSH`, `DESTROY` and `DELETE` takes a stored digest out of its bucket. -/
def Obligations.NothingIsForgottenWithoutADrop : Prop :=
  ∀ (i : Instr) (s t : State), StateInv s → s.cfg = true → exec i s = .next t →
    t.drops = s.drops → i ≠ .flush 0 → i ≠ .destroy 0 → (∀ h, i ≠ .delete h) →
    ∀ b < tableBuckets s.ibits, ∀ d, d ≠ 0 → d ∈ slotsOf s.mem b → d ∈ slotsOf t.mem b

/-- R164, its consequences: `n` inserting `SET`s after a fresh start the counters are `n` modulo
`THRESH + 1` and `1 + n div (THRESH + 1)` modulo 256. -/
def Obligations.AgingFollowsTheInsertionVolume : Prop :=
  ∀ (s : State) (n : Nat), s.inscnt = 0 → s.epoch = 1 → s.thresh.toNat + 1 < 2 ^ 64 →
    (advanceAging^[n] s).inscnt.toNat = n % (s.thresh.toNat + 1) ∧
    (advanceAging^[n] s).epoch.toNat = (1 + n / (s.thresh.toNat + 1)) % 256 ∧
    (advanceAging^[n] s).thresh = s.thresh

/-- R188 to R190: `DELETE` removes the digest from the first candidate bucket that holds its paired
digest and closes the gap; a miss changes no state; no register changes and no stamp. -/
def Obligations.DeleteRemovesOneDigest : Prop :=
  ∀ (h : DWord) (s : State), TableReady s →
    let c := derive s.config s.ibits h
    let b1 := c.index1.toNat
    let b2 := c.index2.toNat
    ∃ m, exec (.delete h) s = .next { s with
        mem := m
        rsp := some ⟨.ok, decide (c.digest1 ∈ slotsOf s.mem b1 ∨ c.digest2 ∈ slotsOf s.mem b2), 0⟩ } ∧
      Memory.wf m = true ∧
      (c.digest1 ∈ slotsOf s.mem b1 → RemovedAndCompacted s.mem m b1 c.digest1) ∧
      (c.digest1 ∉ slotsOf s.mem b1 → c.digest2 ∈ slotsOf s.mem b2 →
        RemovedAndCompacted s.mem m b2 c.digest2) ∧
      (c.digest1 ∉ slotsOf s.mem b1 → c.digest2 ∉ slotsOf s.mem b2 → m = s.mem)

/-- R191, property T5 of `95_test_vectors.md`: after `DELETE h` a `CHECK h` answers 1 exactly when both
candidate buckets held the paired digest before. -/
def Obligations.CheckAfterDelete : Prop :=
  ∀ (h : DWord) (s t : State), StateInv s → s.cfg = true → exec (.delete h) s = .next t →
    let c := derive s.config s.ibits h
    ∃ u, exec (.check h) t = .next u ∧ u.rsp = some ⟨.ok,
      decide (c.digest1 ∈ slotsOf s.mem c.index1.toNat ∧
        c.digest2 ∈ slotsOf s.mem c.index2.toNat), 0⟩

/-! ### Lifecycle (`46_lifecycle.md`) -/

/-- R196: `CREATE` takes the least index width of at least 1 that gives the slots asked for; it is at
most 59. -/
def Obligations.SizingIsTheLeastWidth : Prop :=
  ∀ cap : DWord, 1 ≤ widthFor cap ∧ cap.toNat ≤ 42 * 2 ^ widthFor cap ∧ widthFor cap ≤ 59 ∧
    ∀ ib, 1 ≤ ib → cap.toNat ≤ 42 * 2 ^ ib → widthFor cap ≤ ib

/-- R195, R40, R198, R199: a `CREATE` that fits makes an empty table of the least width: every
register as the rules say, the seed the value on `rand_in`, every byte of the table's buckets zero,
every other byte, `ERRS`, `LASTERR` as before; the response carries the rounded capacity. -/
def Obligations.CreateMakesAnEmptyTable : Prop :=
  ∀ (cap : DWord) (s : State), s.config.Legal → s.cfg = false →
    cap.toNat ≤ 42 * 2 ^ s.config.ibitsMax →
    ∃ ib m, (1 ≤ ib ∧ cap.toNat ≤ 42 * 2 ^ ib ∧ ∀ j, 1 ≤ j → cap.toNat ≤ 42 * 2 ^ j → ib ≤ j) ∧
      ib ≤ s.config.ibitsMax ∧
      (∀ a, readByte m a = if a < 128 * 2 ^ ib then 0 else readByte s.mem a) ∧
      exec (.create cap) s = .next { s with
        cfg := true
        ibits := ib
        seed := s.randIn
        epoch := 1
        inscnt := 0
        thresh := BitVec.ofNat 64 (42 * 2 ^ ib / 16)
        drops := 0
        mem := m
        rsp := some ⟨.ok, true, BitVec.ofNat 64 (42 * 2 ^ ib)⟩ }

/-- R202, R203, R41: `DESTROY` leaves the block unconfigured with `ERRS` and `LASTERR` kept, and then
every command that needs a table, its operand well-formed, is refused with `E_NOTABLE`, so that nothing
the table held can be read. -/
def Obligations.DestroyLeavesNothingReadable : Prop :=
  ∀ s : State, s.cfg = true → ∃ t, exec (.destroy 0) s = .next t ∧ t.cfg = false ∧
    t.errs = s.errs ∧ t.lasterr = s.lasterr ∧ t.rsp = some ⟨.ok, false, 0⟩ ∧
    t.config = s.config ∧ t.inputs = s.inputs ∧ t.randIn = s.randIn ∧
    ∀ i : Instr, i.wf = true → needsTable i = true → exec i t = .next { t with
      errs := true, lasterr := .noTable, rsp := some ⟨.noTable, false, 0⟩ }

/-- R204, R205: `FLUSH` zeroes every byte of the table's buckets, sets `EPOCH` to 1 and `INSCNT` to 0,
and keeps every other register and every byte outside the table. -/
def Obligations.FlushEmptiesTheTable : Prop :=
  ∀ s : State, TableReady s →
    ∃ m, (∀ a, readByte m a = if a < 128 * 2 ^ s.ibits then 0 else readByte s.mem a) ∧
      Memory.wf m = true ∧
      exec (.flush 0) s = .next { s with
        mem := m, epoch := 1, inscnt := 0, rsp := some ⟨.ok, false, 0⟩ }

/-- R206: the state after `FLUSH` is the state after `DESTROY` and a `CREATE` of the same size, in all
the host can tell apart but `SEED` and `DROPS` (and the two responses). -/
def Obligations.FlushedTableIsAFreshTable : Prop :=
  ∀ (s t u v : State) (cap : DWord), StateInv s → s.cfg = true → widthFor cap = s.ibits →
    exec (.flush 0) s = .next t → exec (.destroy 0) s = .next u → exec (.create cap) u = .next v →
    SameVisible t { v with seed := s.seed, drops := s.drops, rsp := t.rsp }

/-- R24 to R34, R210: what `RDREG` gives for each of the eleven registers, as numbers; it changes
nothing but the response. `STATUS` and `HWCFG` need no table. -/
def Obligations.RdregReadsEveryRegister : Prop :=
  ∀ s : State,
    let read (rn : BitVec 8) (v : Nat) : Prop :=
      exec (.rdreg 0 rn) s = .next { s with rsp := some ⟨.ok, false, BitVec.ofNat 64 v⟩ }
    (read 0 (16 * (errCode s.lasterr).toNat + 2 * s.errs.toNat + s.cfg.toNat) ∧
      read 1 s.config.ibitsMax) ∧
    (s.cfg = true →
      read 2 s.ibits ∧ read 3 (2 ^ s.ibits - 1) ∧ read 4 (42 * 2 ^ s.ibits) ∧
      read 5 (128 * 2 ^ s.ibits) ∧ read 6 s.seed.toNat ∧ read 7 s.epoch.toNat ∧
      read 8 s.inscnt.toNat ∧ read 9 s.thresh.toNat ∧ read 10 s.drops.toNat)
end

