-- ==== Sys2Proof/Laws/Memory.lean ====
section
/-! SUPPORT. The bucket store: what a read gives after each memory operation, and that every memory
operation keeps the canonical form. -/

namespace Sys2Proof.Machine

/-! ### The canonical form -/

@[simp] theorem Memory.wf_nil : Memory.wf [] = true := rfl

theorem Memory.wf_cons {c : Host.Cell} {m : Memory} :
    Memory.wf (c :: m) = true ↔
      c.2 ≠ fillByte ∧ (∀ d ∈ m, c.1 < d.1) ∧ Memory.wf m = true := by
  simp [Memory.wf, and_assoc]

/-- Nothing below the first listed address is listed. -/
theorem readByte_of_forall_ne {m : Memory} {a : Nat} (h : ∀ d ∈ m, d.1 ≠ a) :
    readByte m a = fillByte := by
  induction m with
  | nil => rfl
  | cons c m ih =>
    rw [readByte, if_neg (h c (by simp))]
    exact ih fun d hd => h d (by simp [hd])

theorem mem_writeByte {m : Memory} {a : Nat} {v : Byte} {d : Host.Cell}
    (h : d ∈ writeByte m a v) : d ∈ m ∨ d = (a, v) := by
  induction m with
  | nil => unfold writeByte at h; split at h <;> simp_all
  | cons c m ih =>
    unfold writeByte at h
    split at h
    · rcases List.mem_cons.1 h with rfl | h
      · simp
      · rcases ih h with h | h <;> simp [h]
    · split at h <;> split at h <;> simp_all <;> tauto

/-- A write keeps the canonical form. -/
theorem writeByte_wf {m : Memory} (a : Nat) (v : Byte) (h : Memory.wf m = true) :
    Memory.wf (writeByte m a v) = true := by
  induction m with
  | nil => unfold writeByte; split <;> simp_all [Memory.wf_cons]
  | cons c m ih =>
    obtain ⟨h1, h2, h3⟩ := Memory.wf_cons.1 h
    unfold writeByte
    split
    · rename_i hlt
      refine Memory.wf_cons.2 ⟨h1, fun d hd => ?_, ih h3⟩
      rcases mem_writeByte hd with hd | rfl
      · exact h2 d hd
      · exact hlt
    · rename_i hlt
      split
      · split <;> assumption
      · rename_i hv
        split
        · rename_i heq
          exact Memory.wf_cons.2 ⟨hv, fun d hd => heq ▸ h2 d hd, h3⟩
        · rename_i hne
          refine Memory.wf_cons.2 ⟨hv, fun d hd => ?_, h⟩
          rcases List.mem_cons.1 hd with rfl | hd
          · show a < d.1
            omega
          · have := h2 d hd
            show a < d.1
            omega

/-! ### Reading a byte after writing one -/

theorem readByte_writeByte_ne {m : Memory} {a b : Nat} (v : Byte) (h : a ≠ b) :
    readByte (writeByte m a v) b = readByte m b := by
  induction m with
  | nil => unfold writeByte; split <;> simp [readByte, h]
  | cons c m ih =>
    unfold writeByte
    split
    · simp only [readByte, ih]
    · split
      · split
        · rename_i hc
          rw [readByte, if_neg (by omega)]
        · rfl
      · rw [readByte, if_neg h]
        split
        · rename_i hc
          rw [readByte, if_neg (by omega)]
        · rfl

theorem readByte_writeByte_same {m : Memory} (a : Nat) (v : Byte) (h : Memory.wf m = true) :
    readByte (writeByte m a v) a = v := by
  induction m with
  | nil => unfold writeByte; split <;> simp_all [readByte]
  | cons c m ih =>
    obtain ⟨-, h2, h3⟩ := Memory.wf_cons.1 h
    unfold writeByte
    split
    · rename_i hlt
      rw [readByte, if_neg (by omega), ih h3]
    · rename_i hlt
      split
      · rename_i hv
        subst hv
        split
        · rename_i hc
          exact readByte_of_forall_ne fun d hd => by have := h2 d hd; omega
        · rename_i hc
          refine readByte_of_forall_ne fun d hd => ?_
          rcases List.mem_cons.1 hd with rfl | hd
          · exact hc
          · have := h2 d hd; omega
      · rw [readByte, if_pos rfl]

theorem readByte_writeByte {m : Memory} (a b : Nat) (v : Byte) (h : Memory.wf m = true) :
    readByte (writeByte m a v) b = if a = b then v else readByte m b := by
  split
  · rename_i hab; subst hab; exact readByte_writeByte_same a v h
  · rename_i hab; exact readByte_writeByte_ne v hab

/-- Memories in canonical form that read alike are equal. -/
theorem Memory.ext_of_readByte {m n : Memory} (hm : Memory.wf m = true) (hn : Memory.wf n = true)
    (h : ∀ a, readByte m a = readByte n a) : m = n := by
  induction m generalizing n with
  | nil =>
    cases n with
    | nil => rfl
    | cons d n =>
      have := h d.1
      simp [readByte] at this
      exact absurd this.symm (Memory.wf_cons.1 hn).1
  | cons c m ih =>
    obtain ⟨c1, c2, c3⟩ := Memory.wf_cons.1 hm
    cases n with
    | nil =>
      have := h c.1
      simp [readByte] at this
      exact absurd this c1
    | cons d n =>
      obtain ⟨d1, d2, d3⟩ := Memory.wf_cons.1 hn
      have hcd : c.1 = d.1 := by
        rcases Nat.lt_trichotomy c.1 d.1 with hlt | heq | hlt
        · have := h c.1
          rw [readByte, if_pos rfl, readByte_of_forall_ne (m := d :: n)] at this
          · exact absurd this c1
          · intro e he
            rcases List.mem_cons.1 he with rfl | he
            · omega
            · have := d2 e he; omega
        · exact heq
        · have := h d.1
          rw [readByte_of_forall_ne (m := c :: m), readByte, if_pos rfl] at this
          · exact absurd this.symm d1
          · intro e he
            rcases List.mem_cons.1 he with rfl | he
            · omega
            · have := c2 e he; omega
      have hv : c.2 = d.2 := by
        have := h c.1
        rwa [readByte, if_pos rfl, readByte, if_pos hcd.symm] at this
      have hmn : m = n := by
        refine ih c3 d3 fun a => ?_
        by_cases hac : c.1 = a
        · rw [readByte_of_forall_ne, readByte_of_forall_ne]
          · intro e he; have := d2 e he; omega
          · intro e he; have := c2 e he; omega
        · have := h a
          rwa [readByte, if_neg hac, readByte, if_neg (hcd ▸ hac)] at this
      rw [hmn, Prod.ext hcd hv]

/-! ### Words -/

theorem memWrite_wf {m : Memory} (a : Nat) (v : Word) (h : Memory.wf m = true) :
    Memory.wf (memWrite m a v) = true := by
  rw [memWrite]
  exact writeByte_wf _ _ (writeByte_wf _ _ (writeByte_wf _ _ (writeByte_wf _ _ h)))

/-- Every byte outside the four of the word reads as before. -/
theorem readByte_memWrite_outside {m : Memory} {a b : Nat} (v : Word)
    (h : b < 4 * a ∨ 4 * a + 4 ≤ b) : readByte (memWrite m a v) b = readByte m b := by
  unfold memWrite
  rw [readByte_writeByte_ne _ (by omega), readByte_writeByte_ne _ (by omega),
    readByte_writeByte_ne _ (by omega), readByte_writeByte_ne _ (by omega)]

theorem memRead_memWrite_ne {m : Memory} {a b : Nat} (v : Word) (h : a ≠ b) :
    memRead (memWrite m a v) b = memRead m b := by
  unfold memRead
  rw [readByte_memWrite_outside v (by omega), readByte_memWrite_outside v (by omega),
    readByte_memWrite_outside v (by omega), readByte_memWrite_outside v (by omega)]

theorem word_of_bytes (v : Word) :
    v.extractLsb' 24 8 ++ v.extractLsb' 16 8 ++ v.extractLsb' 8 8 ++ v.extractLsb' 0 8 = v := by
  apply BitVec.eq_of_getLsbD_eq
  intro i hi
  simp only [BitVec.getLsbD_append, BitVec.getLsbD_extractLsb']
  split
  · simp_all
  · split
    · have : 8 + (i - 8) = i := by omega
      simp_all
    · split
      · have : 16 + (i - 8 - 8) = i := by omega
        simp_all
      · have : 24 + (i - 8 - 8 - 8) = i := by omega
        have h2 : i - 8 - 8 - 8 < 8 := by omega
        simp_all

theorem memRead_memWrite_same {m : Memory} (a : Nat) (v : Word) (h : Memory.wf m = true) :
    memRead (memWrite m a v) a = v := by
  have h1 := writeByte_wf (4 * a) (v.extractLsb' 0 8) h
  have h2 := writeByte_wf (4 * a + 1) (v.extractLsb' 8 8) h1
  have h3 := writeByte_wf (4 * a + 2) (v.extractLsb' 16 8) h2
  unfold memRead memWrite
  simp only [readByte_writeByte _ _ _ h3, readByte_writeByte _ _ _ h2, readByte_writeByte _ _ _ h1,
    readByte_writeByte _ _ _ h]
  simp only [Nat.add_left_cancel_iff, Nat.add_eq_left, Nat.reduceEqDiff, OfNat.ofNat_ne_zero,
    one_ne_zero, ↓reduceIte]
  exact word_of_bytes v

theorem memRead_memWrite {m : Memory} (a b : Nat) (v : Word) (h : Memory.wf m = true) :
    memRead (memWrite m a v) b = if a = b then v else memRead m b := by
  split
  · rename_i hab; subst hab; exact memRead_memWrite_same a v h
  · rename_i hab; exact memRead_memWrite_ne v hab

theorem word_append_inj {a a' b b' c c' d d' : Byte}
    (h : a ++ b ++ c ++ d = a' ++ b' ++ c' ++ d') : a = a' ∧ b = b' ∧ c = c' ∧ d = d' := by
  have key : ∀ x y z w : Byte, ((x ++ y ++ z ++ w).extractLsb' 0 8 = w ∧
      (x ++ y ++ z ++ w).extractLsb' 8 8 = z ∧ (x ++ y ++ z ++ w).extractLsb' 16 8 = y ∧
      (x ++ y ++ z ++ w).extractLsb' 24 8 = x) := by
    intro x y z w
    refine ⟨?_, ?_, ?_, ?_⟩ <;>
    · apply BitVec.eq_of_getLsbD_eq
      intro i hi
      simp only [BitVec.getLsbD_extractLsb', BitVec.getLsbD_append, hi, decide_true, Bool.true_and]
      (repeat' split) <;> first | omega | (congr 1; omega)
  obtain ⟨p0, p1, p2, p3⟩ := key a b c d
  obtain ⟨q0, q1, q2, q3⟩ := key a' b' c' d'
  rw [h] at p0 p1 p2 p3
  exact ⟨p3.symm.trans q3, p2.symm.trans q2, p1.symm.trans q1, p0.symm.trans q0⟩

/-- Two memories read alike by bytes in a range of words exactly when they read alike by words. -/
theorem readByte_eq_of_memRead_eq {m n : Memory} {a : Nat} (h : memRead m a = memRead n a)
    (r : Nat) (hr : r < 4) : readByte m (4 * a + r) = readByte n (4 * a + r) := by
  simp only [memRead] at h
  obtain ⟨h3, h2, h1, h0⟩ := word_append_inj h
  interval_cases r <;> assumption

/-- Memories in canonical form that read alike word by word are equal. -/
theorem Memory.ext_of_memRead {m n : Memory} (hm : Memory.wf m = true) (hn : Memory.wf n = true)
    (h : ∀ a, memRead m a = memRead n a) : m = n := by
  refine Memory.ext_of_readByte hm hn fun a => ?_
  have := readByte_eq_of_memRead_eq (h (a / 4)) (a % 4) (by omega)
  rwa [Nat.div_add_mod] at this

/-! ### The zeroing sweep -/

theorem mem_clearBuckets {m : Memory} {n : Nat} {d : Host.Cell} :
    d ∈ clearBuckets m n ↔ d ∈ m ∧ 64 * n ≤ d.1 := by
  simp [clearBuckets]

theorem clearBuckets_wf {m : Memory} (n : Nat) (h : Memory.wf m = true) :
    Memory.wf (clearBuckets m n) = true := by
  induction m with
  | nil => rfl
  | cons c m ih =>
    obtain ⟨h1, h2, h3⟩ := Memory.wf_cons.1 h
    unfold clearBuckets
    rw [List.filter_cons]
    split
    · exact Memory.wf_cons.2 ⟨h1, fun d hd => h2 d (List.mem_of_mem_filter hd), ih h3⟩
    · exact ih h3

theorem readByte_clearBuckets (m : Memory) (n a : Nat) :
    readByte (clearBuckets m n) a = if a < 64 * n then fillByte else readByte m a := by
  induction m with
  | nil => simp [clearBuckets, readByte]
  | cons c m ih =>
    unfold clearBuckets at ih ⊢
    rw [List.filter_cons]
    by_cases hc : 64 * n ≤ c.1
    · simp only [hc, decide_true, ↓reduceIte, readByte]
      by_cases hca : c.1 = a
      · rw [if_pos hca, if_pos hca, if_neg (by omega)]
      · rw [if_neg hca, if_neg hca, ih]
    · simp only [hc, decide_false, Bool.false_eq_true, ↓reduceIte, readByte]
      rw [ih]
      by_cases hca : c.1 = a
      · rw [if_pos (by omega), if_pos (by omega)]
      · rw [if_neg hca]

/-- A word of a cleared bucket reads 0; every other word reads as before. -/
theorem memRead_clearBuckets (m : Memory) (n a : Nat) :
    memRead (clearBuckets m n) a = if a < 16 * n then 0 else memRead m a := by
  unfold memRead
  simp only [readByte_clearBuckets]
  split
  · repeat rw [if_pos (by omega)]
    rfl
  · repeat rw [if_neg (by omega)]

/-! ### Bytes stay inside the store -/

theorem writeByte_below {n : Nat} {m : Memory} {a : Nat} (v : Byte) (h : m.Below n) (ha : a < n) :
    (writeByte m a v).Below n := fun d hd => by
  rcases mem_writeByte hd with hd | rfl
  · exact h d hd
  · exact ha

theorem memWrite_below {n : Nat} {m : Memory} {a : Nat} (v : Word) (h : m.Below n)
    (ha : 4 * a + 3 < n) : (memWrite m a v).Below n := by
  rw [memWrite]
  exact writeByte_below _ (writeByte_below _ (writeByte_below _ (writeByte_below _ h (by omega))
    (by omega)) (by omega)) ha

theorem clearBuckets_below {n : Nat} {m : Memory} (k : Nat) (h : m.Below n) :
    (clearBuckets m k).Below n := fun d hd => h d (mem_clearBuckets.1 hd).1

theorem storeOf_invariant (c : Config) (cells : List Host.Cell) :
    Memory.wf (storeOf c cells) = true ∧ (storeOf c cells).Below (storeBytes c) := by
  suffices h : ∀ m : Memory, Memory.wf m = true ∧ m.Below (storeBytes c) →
      Memory.wf (cells.foldl (fun m x => if x.1 < storeBytes c then writeByte m x.1 x.2 else m) m) =
        true ∧
      Memory.Below (storeBytes c)
        (cells.foldl (fun m x => if x.1 < storeBytes c then writeByte m x.1 x.2 else m) m) from
    h [] ⟨rfl, fun d hd => by simp at hd⟩
  induction cells with
  | nil => exact fun m h => h
  | cons x cells ih =>
    intro m h
    rw [List.foldl_cons]
    apply ih
    split
    · exact ⟨writeByte_wf _ _ h.1, writeByte_below _ h.2 (by assumption)⟩
    · exact h

/-- The unspecified store is in canonical form. -/
theorem storeOf_wf (c : Config) (cells : List Host.Cell) : Memory.wf (storeOf c cells) = true :=
  (storeOf_invariant c cells).1

/-- The unspecified store lists nothing outside the store. -/
theorem storeOf_below (c : Config) (cells : List Host.Cell) :
    (storeOf c cells).Below (storeBytes c) := (storeOf_invariant c cells).2

end Sys2Proof.Machine
end

