-- ==== Sys2Proof/Laws/Codec.lean ====
section
/-! SUPPORT. The bucket codec: what decoding gives after each way a bucket is written. Callers cite
these and never unfold the codec. -/

namespace Sys2Proof.Machine

/-! ### Encoding a bucket -/

theorem encodeBucket_eq (m : Memory) (b : Nat) (lb : LogicalBucket) :
    encodeBucket m b lb =
      (List.range 16).foldl (fun m i => memWrite m (wordAddr b i) (bucketWord lb i)) m := by
  rw [encodeBucket]

/-- What holds of a memory and is kept by every word written into bucket `b` holds after encoding. -/
theorem encodeBucket_induction {P : Memory → Prop} {m : Memory} {b : Nat} (lb : LogicalBucket)
    (h : P m) (step : ∀ m i, i < 16 → P m → P (memWrite m (wordAddr b i) (bucketWord lb i))) :
    P (encodeBucket m b lb) := by
  have key : ∀ n ≤ 16, P ((List.range n).foldl
      (fun m i => memWrite m (wordAddr b i) (bucketWord lb i)) m) := by
    intro n
    induction n with
    | zero => exact fun _ => h
    | succ n ih =>
      intro hn
      rw [List.range_succ, List.foldl_append]
      exact step _ n (by omega) (ih (by omega))
  rw [encodeBucket]
  exact key 16 le_rfl

theorem encodeBucket_wf {m : Memory} (b : Nat) (lb : LogicalBucket) (h : Memory.wf m = true) :
    Memory.wf (encodeBucket m b lb) = true :=
  encodeBucket_induction (P := fun m => Memory.wf m = true) lb h fun _ _ _ hm => memWrite_wf _ _ hm

theorem encodeBucket_below {m : Memory} {n b : Nat} (lb : LogicalBucket) (h : m.Below n)
    (hb : 64 * b + 64 ≤ n) : (encodeBucket m b lb).Below n :=
  encodeBucket_induction (P := fun m => m.Below n) lb h fun _ i hi hm =>
    memWrite_below _ hm (by unfold wordAddr; omega)

/-- Every byte outside the bucket's 64 reads as before. -/
theorem readByte_encodeBucket_outside {m : Memory} {b a : Nat} (lb : LogicalBucket)
    (h : a < 64 * b ∨ 64 * b + 64 ≤ a) : readByte (encodeBucket m b lb) a = readByte m a :=
  encodeBucket_induction (P := fun m' => readByte m' a = readByte m a) lb rfl fun m' i hi hm => by
    rw [readByte_memWrite_outside _ (by unfold wordAddr; omega), hm]

theorem memRead_encodeBucket {m : Memory} (b a : Nat) (lb : LogicalBucket)
    (h : Memory.wf m = true) :
    memRead (encodeBucket m b lb) a =
      if 16 * b ≤ a ∧ a < 16 * b + 16 then bucketWord lb (a - 16 * b) else memRead m a := by
  have key : ∀ n, Memory.wf ((List.range n).foldl
      (fun m i => memWrite m (wordAddr b i) (bucketWord lb i)) m) = true ∧
      memRead ((List.range n).foldl
        (fun m i => memWrite m (wordAddr b i) (bucketWord lb i)) m) a =
      if 16 * b ≤ a ∧ a < 16 * b + n then bucketWord lb (a - 16 * b) else memRead m a := by
    intro n
    induction n with
    | zero => exact ⟨h, by rw [if_neg (by omega)]; rfl⟩
    | succ n ih =>
      rw [List.range_succ, List.foldl_append]
      refine ⟨memWrite_wf _ _ ih.1, ?_⟩
      rw [List.foldl_cons, List.foldl_nil, memRead_memWrite _ _ _ ih.1, ih.2]
      unfold wordAddr
      by_cases ha : 16 * b + n = a
      · subst ha
        rw [if_pos rfl, if_pos (by omega)]
        simp
      · rw [if_neg ha]
        by_cases hin : 16 * b ≤ a ∧ a < 16 * b + n
        · rw [if_pos hin, if_pos (by omega)]
        · rw [if_neg hin, if_neg (by omega)]
  rw [encodeBucket]
  exact (key 16).2

/-! ### Bit fields of a bucket word -/

theorem highPart_append (d : Digest) (x : Byte) : (d ++ x : Word).extractLsb' 8 24 = d := by
  apply BitVec.eq_of_getLsbD_eq
  intro i hi
  simp only [BitVec.getLsbD_extractLsb', BitVec.getLsbD_append]
  rw [if_neg (by omega)]
  simp [hi]

theorem lowByte_append (d : Digest) (x : Byte) : (d ++ x : Word).extractLsb' 0 8 = x := by
  apply BitVec.eq_of_getLsbD_eq
  intro i hi
  simp only [BitVec.getLsbD_extractLsb', BitVec.getLsbD_append]
  rw [if_pos (by omega)]
  simp [hi]

theorem parts_append (w : Word) : w.extractLsb' 8 24 ++ w.extractLsb' 0 8 = w := by
  apply BitVec.eq_of_getLsbD_eq
  intro i hi
  simp only [BitVec.getLsbD_extractLsb', BitVec.getLsbD_append]
  split
  · simp_all
  · have : 8 + (i - 8) = i := by omega
    have h2 : i - 8 < 24 := by omega
    simp_all

theorem slotBytes_append (d : Digest) : slotByte d 0 ++ slotByte d 1 ++ slotByte d 2 = d := by
  unfold slotByte
  apply BitVec.eq_of_getLsbD_eq
  intro i hi
  simp only [BitVec.getLsbD_append, BitVec.getLsbD_extractLsb']
  split
  · simp_all
  · split
    · have : 8 + (i - 8) = i := by omega
      simp_all
    · have : 16 + (i - 8 - 8) = i := by omega
      have h2 : i - 8 - 8 < 8 := by omega
      simp_all

theorem slotByte_append (x y z : Byte) :
    slotByte (x ++ y ++ z) 0 = x ∧ slotByte (x ++ y ++ z) 1 = y ∧ slotByte (x ++ y ++ z) 2 = z := by
  unfold slotByte
  refine ⟨?_, ?_, ?_⟩ <;>
  · apply BitVec.eq_of_getLsbD_eq
    intro i hi
    simp only [BitVec.getLsbD_extractLsb', BitVec.getLsbD_append, hi, decide_true, Bool.true_and]
    (repeat' split) <;> first | omega | (congr 1; omega)

/-! ### Decoding -/

@[simp] theorem decodeBucket_length (m : Memory) (b : Nat) :
    (decodeBucket m b).slots.length = 21 := by
  simp [decodeBucket]

@[simp] theorem slotsOf_length (m : Memory) (b : Nat) : (slotsOf m b).length = 21 :=
  decodeBucket_length m b

theorem slotsOf_direct (m : Memory) (b : Nat) {i : Nat} (h : i < 16) :
    (slotsOf m b).getD i 0 = directSlot m b i := by
  simp [slotsOf, decodeBucket, List.getD_eq_getElem?_getD, List.getElem?_append, h]

theorem slotsOf_extended (m : Memory) (b : Nat) {j : Nat} (h : j < 5) :
    (slotsOf m b).getD (16 + j) 0 = extendedSlot m b j := by
  simp [slotsOf, decodeBucket, List.getD_eq_getElem?_getD, List.getElem?_append, h]

/-- Decoding looks at the sixteen words of the bucket only. -/
theorem decodeBucket_congr {m n : Memory} {b : Nat}
    (h : ∀ i < 16, memRead m (wordAddr b i) = memRead n (wordAddr b i)) :
    decodeBucket m b = decodeBucket n b := by
  unfold decodeBucket
  congr 1
  · congr 1
    · apply List.map_congr_left
      intro i hi
      simp only [directSlot, h i (List.mem_range.1 hi)]
    · apply List.map_congr_left
      intro j hj
      have := List.mem_range.1 hj
      simp only [extendedSlot, lowByte, h _ (show 3 * j < 16 by omega),
        h _ (show 3 * j + 1 < 16 by omega), h _ (show 3 * j + 2 < 16 by omega)]
  · simp only [lowByte, h 15 (by omega)]

theorem stampOf_eq (m : Memory) (b : Nat) : stampOf m b = (decodeBucket m b).stamp := by
  rw [decodeBucket]
  rfl

theorem list_ext_getD {α : Type} {l l' : List α} {d : α} {n : Nat} (h1 : l.length = n)
    (h2 : l'.length = n) (h : ∀ i < n, l.getD i d = l'.getD i d) : l = l' := by
  apply List.ext_getElem (h1.trans h2.symm)
  intro i hi hi'
  have := h i (h1 ▸ hi)
  simpa [List.getD_eq_getElem?_getD, hi, hi'] using this

theorem memRead_encodeBucket_own {m : Memory} {b i : Nat} (lb : LogicalBucket)
    (h : Memory.wf m = true) (hi : i < 16) :
    memRead (encodeBucket m b lb) (wordAddr b i) = bucketWord lb i := by
  rw [memRead_encodeBucket _ _ _ h, if_pos (by unfold wordAddr; omega)]
  simp [wordAddr]

theorem extendedSlot_bucketWord (lb : LogicalBucket) {j : Nat} (h : j < 5) :
    (bucketWord lb (3 * j)).extractLsb' 0 8 ++ (bucketWord lb (3 * j + 1)).extractLsb' 0 8 ++
      (bucketWord lb (3 * j + 2)).extractLsb' 0 8 = lb.slots.getD (16 + j) 0 := by
  unfold bucketWord
  rw [if_pos (by omega), if_pos (by omega), if_pos (by omega)]
  simp only [lowByte_append]
  have h0 : 3 * j / 3 = j := by omega
  have h1 : (3 * j + 1) / 3 = j := by omega
  have h2 : (3 * j + 2) / 3 = j := by omega
  have h3 : 3 * j % 3 = 0 := by omega
  have h4 : (3 * j + 1) % 3 = 1 := by omega
  have h5 : (3 * j + 2) % 3 = 2 := by omega
  rw [h0, h1, h2, h3, h4, h5, slotBytes_append]

/-- `Decode` after `Encode` gives the logical bucket back (R120). -/
theorem decodeBucket_encodeBucket {m : Memory} (b : Nat) {lb : LogicalBucket}
    (h : Memory.wf m = true) (hl : lb.slots.length = 21) :
    decodeBucket (encodeBucket m b lb) b = lb := by
  have hs : (decodeBucket (encodeBucket m b lb) b).slots = lb.slots := by
    refine list_ext_getD (d := 0) (decodeBucket_length _ _) hl fun i hi => ?_
    show (slotsOf _ _).getD i 0 = _
    by_cases h16 : i < 16
    · rw [slotsOf_direct _ _ h16, directSlot, memRead_encodeBucket_own _ h h16, bucketWord,
        highPart_append]
    · obtain ⟨j, rfl⟩ : ∃ j, i = 16 + j := ⟨i - 16, by omega⟩
      rw [slotsOf_extended _ _ (by omega), extendedSlot, lowByte, lowByte, lowByte,
        memRead_encodeBucket_own _ h (by omega), memRead_encodeBucket_own _ h (by omega),
        memRead_encodeBucket_own _ h (by omega), extendedSlot_bucketWord _ (by omega)]
  have ht : (decodeBucket (encodeBucket m b lb) b).stamp = lb.stamp := by
    rw [← stampOf_eq, stampOf, memRead_encodeBucket_own _ h (by omega), bucketWord, lowByte_append]
    rfl
  cases lb
  cases hd : decodeBucket (encodeBucket m b _) b
  simp_all

theorem memRead_encodeBucket_other {m : Memory} {b b' i : Nat} (lb : LogicalBucket)
    (h : Memory.wf m = true) (hb : b' ≠ b) (hi : i < 16) :
    memRead (encodeBucket m b lb) (wordAddr b' i) = memRead m (wordAddr b' i) := by
  rw [memRead_encodeBucket _ _ _ h, if_neg (by unfold wordAddr; omega)]

/-- Encoding one bucket leaves every other bucket as it was. -/
theorem decodeBucket_encodeBucket_other {m : Memory} {b b' : Nat} (lb : LogicalBucket)
    (h : Memory.wf m = true) (hb : b' ≠ b) :
    decodeBucket (encodeBucket m b lb) b' = decodeBucket m b' :=
  decodeBucket_congr fun _ hi => memRead_encodeBucket_other lb h hb hi

/-- A bucket's words are the encoding of its decoding. -/
theorem bucketWord_decodeBucket (m : Memory) (b : Nat) {i : Nat} (hi : i < 16) :
    bucketWord (decodeBucket m b) i = memRead m (wordAddr b i) := by
  unfold bucketWord
  have hd : (decodeBucket m b).slots.getD i 0 = directSlot m b i := slotsOf_direct m b hi
  rw [hd]
  by_cases h15 : i < 15
  · rw [if_pos h15]
    have he : (decodeBucket m b).slots.getD (16 + i / 3) 0 = extendedSlot m b (i / 3) :=
      slotsOf_extended m b (by omega)
    rw [he]
    have hb : slotByte (extendedSlot m b (i / 3)) (i % 3) = lowByte m b i := by
      unfold extendedSlot
      obtain ⟨h0, h1, h2⟩ := slotByte_append (lowByte m b (3 * (i / 3)))
        (lowByte m b (3 * (i / 3) + 1)) (lowByte m b (3 * (i / 3) + 2))
      have hr : i % 3 = 0 ∨ i % 3 = 1 ∨ i % 3 = 2 := by omega
      rcases hr with hr | hr | hr <;> rw [hr]
      · rw [h0]; congr 1; omega
      · rw [h1]; congr 1; omega
      · rw [h2]; congr 1; omega
    rw [hb]
    exact parts_append _
  · rw [if_neg h15]
    obtain rfl : i = 15 := by omega
    rw [← stampOf_eq]
    exact parts_append _

/-- `Encode` of what `Decode` gave changes nothing (R120). -/
theorem encodeBucket_decodeBucket {m : Memory} (b : Nat) (h : Memory.wf m = true) :
    encodeBucket m b (decodeBucket m b) = m := by
  refine Memory.ext_of_memRead (encodeBucket_wf _ _ h) h fun a => ?_
  rw [memRead_encodeBucket _ _ _ h]
  split
  · rename_i ha
    rw [bucketWord_decodeBucket _ _ (by omega)]
    congr 1
    unfold wordAddr
    omega
  · rfl

/-! ### The stamp -/

theorem setStamp_wf {m : Memory} (b : Nat) (v : Byte) (h : Memory.wf m = true) :
    Memory.wf (setStamp m b v) = true := memWrite_wf _ _ h

theorem setStamp_below {m : Memory} {n b : Nat} (v : Byte) (h : m.Below n)
    (hb : 64 * b + 64 ≤ n) : (setStamp m b v).Below n :=
  memWrite_below _ h (by unfold wordAddr; omega)

theorem readByte_setStamp_outside {m : Memory} {b a : Nat} (v : Byte)
    (h : a < 64 * b ∨ 64 * b + 64 ≤ a) : readByte (setStamp m b v) a = readByte m a :=
  readByte_memWrite_outside _ (by unfold wordAddr; omega)

theorem decodeBucket_setStamp_other {m : Memory} {b b' : Nat} (v : Byte) (hb : b' ≠ b) :
    decodeBucket (setStamp m b v) b' = decodeBucket m b' :=
  decodeBucket_congr fun i hi => memRead_memWrite_ne _ (by unfold wordAddr; omega)

/-- Setting the stamp sets the stamp and moves no slot (R121). -/
theorem decodeBucket_setStamp {m : Memory} (b : Nat) (v : Byte) (h : Memory.wf m = true) :
    decodeBucket (setStamp m b v) b = ⟨(decodeBucket m b).slots, v⟩ := by
  have key : setStamp m b v = encodeBucket m b ⟨(decodeBucket m b).slots, v⟩ := by
    refine Memory.ext_of_memRead (setStamp_wf _ _ h) (encodeBucket_wf _ _ h) fun a => ?_
    rw [memRead_encodeBucket _ _ _ h, setStamp, memRead_memWrite _ _ _ h]
    by_cases ha : wordAddr b 15 = a
    · subst ha
      rw [if_pos rfl, if_pos (by unfold wordAddr; omega)]
      have h15 : wordAddr b 15 - 16 * b = 15 := by unfold wordAddr; omega
      rw [h15]
      unfold bucketWord
      have hd : (decodeBucket m b).slots.getD 15 0 = directSlot m b 15 := slotsOf_direct m b (by omega)
      simp only [hd, directSlot]
      rfl
    · rw [if_neg ha]
      split
      · rename_i hin
        have hi : a - 16 * b < 15 := by unfold wordAddr at ha; omega
        have hw := bucketWord_decodeBucket m b (show a - 16 * b < 16 by omega)
        have ha' : wordAddr b (a - 16 * b) = a := by unfold wordAddr; omega
        rw [ha'] at hw
        rw [← hw]
        unfold bucketWord
        rw [if_pos hi, if_pos hi]
      · rfl
  rw [key]
  exact decodeBucket_encodeBucket (lb := ⟨_, v⟩) b h (decodeBucket_length m b)

end Sys2Proof.Machine
end

