-- ==== Sys2Proof/Laws/Lru.lean ====
section
/-! SUPPORT. The slot rotator, the scan and the lookups: what each does to the logical slots, the stamp
and the rest of the store, said once. -/

namespace Sys2Proof.Machine

/-! ### The logical sequence -/

@[simp] theorem shiftBack_length {slots : List Digest} {k : Nat} (v : Digest)
    (h : slots.length = 21) (hk : k ≤ 20) : (shiftBack slots k v).length = 21 := by
  simp [shiftBack]; omega

@[simp] theorem closeGap_length {slots : List Digest} {k : Nat} (h : slots.length = 21)
    (hk : k ≤ 20) : (closeGap slots k).length = 21 := by
  simp [closeGap]; omega

/-- `ShiftBack` position by position (R144). -/
theorem shiftBack_getD {slots : List Digest} {k : Nat} (v : Digest) (h : slots.length = 21)
    (hk : k ≤ 20) (i : Nat) :
    (shiftBack slots k v).getD i 0 =
      if i = 0 then v else if i ≤ k then slots.getD (i - 1) 0 else slots.getD i 0 := by
  unfold shiftBack
  simp only [List.getD_eq_getElem?_getD]
  cases i with
  | zero => simp
  | succ i =>
    simp only [List.getElem?_cons_succ, Nat.add_eq_zero_iff, one_ne_zero, and_false, ↓reduceIte,
      Nat.add_sub_cancel]
    by_cases hik : i + 1 ≤ k
    · rw [if_pos hik, List.getElem?_append_left (by simp; omega), List.getElem?_take,
        if_pos (by omega)]
    · rw [if_neg hik, List.getElem?_append_right (by simp; omega), List.getElem?_drop]
      congr 2
      simp only [List.length_take]
      omega

/-- The gap-closing shift position by position (R185). -/
theorem closeGap_getD {slots : List Digest} {k : Nat} (h : slots.length = 21) (hk : k ≤ 20)
    (i : Nat) :
    (closeGap slots k).getD i 0 =
      if i < k then slots.getD i 0 else if i < 20 then slots.getD (i + 1) 0 else 0 := by
  unfold closeGap
  simp only [List.getD_eq_getElem?_getD]
  by_cases hik : i < k
  · rw [if_pos hik, List.getElem?_append_left (by simp; omega),
      List.getElem?_append_left (by simp; omega), List.getElem?_take, if_pos hik]
  · rw [if_neg hik]
    by_cases hi : i < 20
    · rw [if_pos hi, List.getElem?_append_left (by simp; omega),
        List.getElem?_append_right (by simp; omega), List.getElem?_drop]
      congr 2
      simp only [List.length_take]
      omega
    · rw [if_neg hi, List.getElem?_append_right (by simp; omega)]
      rcases Nat.lt_or_ge i 21 with h21 | h21
      · have : i - (slots.take k ++ slots.drop (k + 1)).length = 0 := by simp; omega
        rw [this]
        rfl
      · rw [List.getElem?_eq_none (by simp; omega)]
        rfl

/-! ### The rotator on the store

Each operation rewrites the slots of one bucket through the codec. -/

/-- The store after bucket `b`'s slots became `l`, its stamp kept. -/
theorem rewrite_spec {m : Memory} {b : Nat} {l : List Digest} (h : Memory.wf m = true)
    (hl : l.length = 21) :
    slotsOf (encodeBucket m b ⟨l, (decodeBucket m b).stamp⟩) b = l ∧
    stampOf (encodeBucket m b ⟨l, (decodeBucket m b).stamp⟩) b = stampOf m b := by
  have := decodeBucket_encodeBucket (lb := ⟨l, (decodeBucket m b).stamp⟩) b h hl
  constructor
  · rw [slotsOf, this]
  · rw [stampOf_eq, this, stampOf_eq]

theorem promote_eq (m : Memory) (b k : Nat) :
    promote m b k = encodeBucket m b
      ⟨shiftBack (slotsOf m b) k ((slotsOf m b).getD k 0), (decodeBucket m b).stamp⟩ := rfl

theorem insertFront_eq (m : Memory) (b : Nat) (d : Digest) :
    insertFront m b d = encodeBucket m b
      ⟨shiftBack (slotsOf m b) 20 d, (decodeBucket m b).stamp⟩ := rfl

theorem compact_eq (m : Memory) (b k : Nat) :
    compact m b k = encodeBucket m b
      ⟨closeGap (slotsOf m b) k, (decodeBucket m b).stamp⟩ := rfl

section
variable {m : Memory} {b b' : Nat}

theorem promote_wf (b k : Nat) (h : Memory.wf m = true) : Memory.wf (promote m b k) = true :=
  encodeBucket_wf _ _ h

theorem insertFront_wf (b : Nat) (d : Digest) (h : Memory.wf m = true) :
    Memory.wf (insertFront m b d) = true := encodeBucket_wf _ _ h

theorem compact_wf (b k : Nat) (h : Memory.wf m = true) : Memory.wf (compact m b k) = true :=
  encodeBucket_wf _ _ h

theorem promote_below {n : Nat} (k : Nat) (h : m.Below n) (hb : 64 * b + 64 ≤ n) :
    (promote m b k).Below n := encodeBucket_below _ h hb

theorem insertFront_below {n : Nat} (d : Digest) (h : m.Below n) (hb : 64 * b + 64 ≤ n) :
    (insertFront m b d).Below n := encodeBucket_below _ h hb

theorem compact_below {n : Nat} (k : Nat) (h : m.Below n) (hb : 64 * b + 64 ≤ n) :
    (compact m b k).Below n := encodeBucket_below _ h hb

/-- `Promote` rotates the slots (R140, R144). -/
theorem slotsOf_promote {k : Nat} (h : Memory.wf m = true) (hk : k ≤ 20) :
    slotsOf (promote m b k) b = shiftBack (slotsOf m b) k ((slotsOf m b).getD k 0) :=
  (rewrite_spec h (shiftBack_length _ (slotsOf_length m b) hk)).1

theorem stampOf_promote {k : Nat} (h : Memory.wf m = true) (hk : k ≤ 20) :
    stampOf (promote m b k) b = stampOf m b :=
  (rewrite_spec h (shiftBack_length _ (slotsOf_length m b) hk)).2

theorem slotsOf_insertFront (d : Digest) (h : Memory.wf m = true) :
    slotsOf (insertFront m b d) b = shiftBack (slotsOf m b) 20 d :=
  (rewrite_spec h (shiftBack_length _ (slotsOf_length m b) le_rfl)).1

theorem stampOf_insertFront (d : Digest) (h : Memory.wf m = true) :
    stampOf (insertFront m b d) b = stampOf m b :=
  (rewrite_spec h (shiftBack_length _ (slotsOf_length m b) le_rfl)).2

theorem slotsOf_compact {k : Nat} (h : Memory.wf m = true) (hk : k ≤ 20) :
    slotsOf (compact m b k) b = closeGap (slotsOf m b) k :=
  (rewrite_spec h (closeGap_length (slotsOf_length m b) hk)).1

theorem stampOf_compact {k : Nat} (h : Memory.wf m = true) (hk : k ≤ 20) :
    stampOf (compact m b k) b = stampOf m b :=
  (rewrite_spec h (closeGap_length (slotsOf_length m b) hk)).2

theorem decodeBucket_promote_other (k : Nat) (h : Memory.wf m = true) (hb : b' ≠ b) :
    decodeBucket (promote m b k) b' = decodeBucket m b' := decodeBucket_encodeBucket_other _ h hb

theorem decodeBucket_insertFront_other (d : Digest) (h : Memory.wf m = true) (hb : b' ≠ b) :
    decodeBucket (insertFront m b d) b' = decodeBucket m b' :=
  decodeBucket_encodeBucket_other _ h hb

theorem decodeBucket_compact_other (k : Nat) (h : Memory.wf m = true) (hb : b' ≠ b) :
    decodeBucket (compact m b k) b' = decodeBucket m b' := decodeBucket_encodeBucket_other _ h hb

theorem readByte_promote_outside {a : Nat} (k : Nat) (h : a < 64 * b ∨ 64 * b + 64 ≤ a) :
    readByte (promote m b k) a = readByte m a := readByte_encodeBucket_outside _ h

theorem readByte_insertFront_outside {a : Nat} (d : Digest) (h : a < 64 * b ∨ 64 * b + 64 ≤ a) :
    readByte (insertFront m b d) a = readByte m a := readByte_encodeBucket_outside _ h

theorem readByte_compact_outside {a : Nat} (k : Nat) (h : a < 64 * b ∨ 64 * b + 64 ≤ a) :
    readByte (compact m b k) a = readByte m a := readByte_encodeBucket_outside _ h

end

/-- The digest placed by an inserting `SET`: at the front of its bucket, which is stamped (R162). -/
theorem insertFront_setStamp_spec {m : Memory} (b : Nat) (d : Digest) (v : Byte)
    (h : Memory.wf m = true) :
    decodeBucket (setStamp (insertFront m b d) b v) b = ⟨shiftBack (slotsOf m b) 20 d, v⟩ := by
  rw [decodeBucket_setStamp b v (insertFront_wf b d h)]
  have := slotsOf_insertFront (b := b) d h
  rw [slotsOf] at this
  rw [this]

theorem insertFront_setStamp_other {m : Memory} {b b' : Nat} (d : Digest) (v : Byte)
    (h : Memory.wf m = true) (hb : b' ≠ b) :
    decodeBucket (setStamp (insertFront m b d) b v) b' = decodeBucket m b' := by
  rw [decodeBucket_setStamp_other v hb, decodeBucket_insertFront_other d h hb]

/-! ### The scan -/

/-- A hit is the first position that holds the digest (R122). -/
theorem findSlot_eq_some {slots : List Digest} {d : Digest} {k : Nat}
    (h : findSlot slots d = some k) :
    k < slots.length ∧ slots.getD k 0 = d ∧ ∀ j < k, slots.getD j 0 ≠ d := by
  unfold findSlot at h
  rw [List.findIdx?_eq_some_iff_getElem] at h
  obtain ⟨hk, hd, hj⟩ := h
  refine ⟨hk, by simpa [List.getD_eq_getElem?_getD, hk] using hd, fun j hjk => ?_⟩
  have := hj j hjk
  simpa [List.getD_eq_getElem?_getD, show j < slots.length by omega] using this

theorem findSlot_eq_none_iff {slots : List Digest} {d : Digest} :
    findSlot slots d = none ↔ d ∉ slots := by
  unfold findSlot
  rw [List.findIdx?_eq_none_iff]
  constructor
  · intro h hd
    simpa using h d hd
  · intro h x hx
    have : x ≠ d := fun e => h (e ▸ hx)
    simpa using this

theorem findSlot_isSome_iff {slots : List Digest} {d : Digest} :
    (∃ k, findSlot slots d = some k) ↔ d ∈ slots := by
  rw [← not_iff_not, ← findSlot_eq_none_iff, Option.eq_none_iff_forall_ne_some]
  simp

/-- The digest at the front is found at position 0. -/
theorem findSlot_cons_self (d : Digest) (l : List Digest) : findSlot (d :: l) d = some 0 := by
  simp [findSlot, List.findIdx?_cons]

/-! ### The lookups -/

/-- Everything a lookup can do (R123): a miss changes nothing, a hit promotes the first match. -/
theorem lookup_cases (m : Memory) (b : Nat) (d : Digest) :
    (d ∉ slotsOf m b ∧ lookup m b d = (false, m)) ∨
    (∃ k, k ≤ 20 ∧ findSlot (slotsOf m b) d = some k ∧ (slotsOf m b).getD k 0 = d ∧
      d ∈ slotsOf m b ∧ lookup m b d = (true, promote m b k)) := by
  unfold lookup
  cases hf : findSlot (decodeBucket m b).slots d with
  | none => exact .inl ⟨findSlot_eq_none_iff.1 hf, rfl⟩
  | some k =>
    obtain ⟨hk, hd, -⟩ := findSlot_eq_some hf
    rw [decodeBucket_length] at hk
    exact .inr ⟨k, by omega, hf, hd, findSlot_isSome_iff.1 ⟨k, hf⟩, rfl⟩

/-- The counting lookup is the lookup with the empty count (R125, R181). -/
theorem lookupCountingEmpty_eq (m : Memory) (b : Nat) (d : Digest) :
    lookupCountingEmpty m b d = ⟨(lookup m b d).1, emptyCount (slotsOf m b), (lookup m b d).2⟩ := by
  unfold lookupCountingEmpty lookup slotsOf
  cases hf : findSlot (decodeBucket m b).slots d <;> simp [hf]

theorem lookup_found_iff (m : Memory) (b : Nat) (d : Digest) :
    (lookup m b d).1 = true ↔ d ∈ slotsOf m b := by
  rcases lookup_cases m b d with ⟨hn, he⟩ | ⟨k, -, -, -, hd, he⟩ <;> simp [*]

theorem lookup_wf {m : Memory} (b : Nat) (d : Digest) (h : Memory.wf m = true) :
    Memory.wf (lookup m b d).2 = true := by
  rcases lookup_cases m b d with ⟨-, he⟩ | ⟨k, -, -, -, -, he⟩ <;> simp only [he]
  · exact h
  · exact promote_wf b k h

theorem lookup_below {m : Memory} {n b : Nat} (d : Digest) (h : m.Below n)
    (hb : 64 * b + 64 ≤ n) : (lookup m b d).2.Below n := by
  rcases lookup_cases m b d with ⟨-, he⟩ | ⟨k, -, -, -, -, he⟩ <;> simp only [he]
  · exact h
  · exact promote_below k h hb

theorem readByte_lookup_outside {m : Memory} {b a : Nat} (d : Digest)
    (h : a < 64 * b ∨ 64 * b + 64 ≤ a) : readByte (lookup m b d).2 a = readByte m a := by
  rcases lookup_cases m b d with ⟨-, he⟩ | ⟨k, -, -, -, -, he⟩ <;> simp only [he]
  exact readByte_promote_outside k h

theorem decodeBucket_lookup_other {m : Memory} {b b' : Nat} (d : Digest) (h : Memory.wf m = true)
    (hb : b' ≠ b) : decodeBucket (lookup m b d).2 b' = decodeBucket m b' := by
  rcases lookup_cases m b d with ⟨-, he⟩ | ⟨k, -, -, -, -, he⟩ <;> simp only [he]
  exact decodeBucket_promote_other k h hb

end Sys2Proof.Machine
end

