-- ==== Sys2Proof/Laws/Bucket.lean ====
section
/-! SUPPORT. Buckets as lists of slots: counting, the first occurrence, what a lookup, an insertion and
a compaction make of a bucket, in the terms of `Safety.lean`. -/

namespace Sys2Proof.Machine

/-! ### Lists of slots -/

/-- A list is what stands before a slot, the slot, and what stands after it. -/
theorem take_append_getD_drop (l : List Digest) (k : Nat) (hk : k < l.length) :
    l.take k ++ l.getD k 0 :: l.drop (k+1) = l := by
  have : l.getD k 0 = l[k] := by simp [List.getD_eq_getElem?_getD, hk]
  rw [this, List.getElem_cons_drop, List.take_append_drop]

/-- The slot at a place inside the list. -/
theorem getD_of_lt (l : List Digest) (i : Nat) (h : i < l.length) : l.getD i 0 = l[i] := by
  simp [List.getD_eq_getElem?_getD, h]

/-- Rotating a slot to the front permutes the slots (R140, R144). -/
theorem shiftBack_perm (l : List Digest) (k : Nat) (hk : k < l.length) :
    (shiftBack l k (l.getD k 0)).Perm l := by
  conv_rhs => rw [← take_append_getD_drop l k hk]
  exact List.perm_middle.symm

/-- R42 item 3 by counting: no digest occurs more than once. -/
theorem noDuplicate_iff_count (l : List Digest) (hl : l.length = 21) :
    NoDuplicate l ↔ ∀ d, d ≠ 0 → l.count d ≤ 1 := by
  constructor
  · intro h d hd
    by_contra hc
    have h2 : 2 ≤ l.count d := by omega
    have : (List.replicate 2 d).Sublist l := List.replicate_sublist_iff.2 h2
    rw [show List.replicate 2 d = [d,d] from rfl] at this
    have hdup := (List.duplicate_iff_sublist.2 this)
    rw [List.duplicate_iff_exists_distinct_get] at hdup
    obtain ⟨n, m, hnm, h1, h3⟩ := hdup
    have a1 := getD_of_lt l n.1 n.2
    have a2 := getD_of_lt l m.1 m.2
    refine h n.1 m.1 hnm (by have := m.2; omega) ?_ ?_
    · rw [a1]; simp at h1; rw [← h1]; exact hd
    · rw [a1, a2]; simp at h1 h3; rw [← h1, ← h3]
  · intro h i j hij hj hi he
    have a1 := getD_of_lt l i (by omega)
    have a2 := getD_of_lt l j (by omega)
    have : l.Duplicate (l.getD i 0) := by
      rw [List.duplicate_iff_exists_distinct_get]
      exact ⟨⟨i, by omega⟩, ⟨j, by omega⟩, hij, a1, he.trans a2⟩
    have := List.duplicate_iff_two_le_count.1 this
    have := h _ hi
    omega

/-- In a bucket with the occupied prefix there is an empty slot exactly when the last one is empty. -/
theorem occupiedPrefix_last (l : List Digest) (hl : l.length = 21) (h : OccupiedPrefix l) :
    (0 < l.count 0 ↔ l.getD 20 0 = 0) := by
  rw [List.count_pos_iff]
  constructor
  · intro hm
    obtain ⟨i, hi, he⟩ := List.getElem_of_mem hm
    rcases Nat.lt_or_ge i 20 with hlt | hge
    · exact h i 20 hlt (by omega) (by rw [getD_of_lt l i hi, he])
    · have : i = 20 := by omega
      subst this; rw [getD_of_lt l 20 hi, he]
  · intro h0
    rw [← h0, getD_of_lt l 20 (by omega)]
    exact List.getElem_mem _

/-- The 21 slots are the first 20 and the last. -/
theorem take_twenty_append (l : List Digest) (hl : l.length = 21) :
    l.take 20 ++ [l.getD 20 0] = l := by
  have := take_append_getD_drop l 20 (by omega)
  rwa [List.drop_of_length_le (by omega)] at this

/-- `ShiftBack` from the last slot: the new value, and the first 20 slots behind it (R143). -/
theorem shiftBack_twenty (l : List Digest) (hl : l.length = 21) (d : Digest) :
    shiftBack l 20 d = d :: l.take 20 := by
  simp [shiftBack, List.drop_of_length_le, hl]

/-- What closing a gap does to the number of times a value occurs: the removed
slot's value once less, 0 once more (R185). -/
theorem closeGap_count (l : List Digest) (k : Nat) (hk : k < l.length) (d : Digest) :
    (closeGap l k).count d + (if l.getD k 0 = d then 1 else 0) =
      l.count d + (if d = 0 then 1 else 0) := by
  have e := congrArg (List.count d) (take_append_getD_drop l k hk)
  generalize l.getD k 0 = v at e ⊢
  rw [← e]
  simp only [closeGap, List.count_append, List.count_cons, List.count_nil, beq_iff_eq]
  have : (0 = d) ↔ d = 0 := eq_comm
  by_cases h1 : v = d <;> by_cases h2 : d = 0 <;>
    simp only [h1, h2, this, if_true, if_false] <;> omega

/-- Taking out the slot that `Find` gives is taking out the first occurrence (R122, D8). -/
theorem erase_of_findSlot (l : List Digest) (d : Digest) (k : Nat) (h : findSlot l d = some k) :
    l.erase d = l.take k ++ l.drop (k+1) := by
  obtain ⟨hk, hd, hf⟩ := findSlot_eq_some h
  have hn : d ∉ l.take k := by
    intro hm
    obtain ⟨i, hi, he⟩ := List.getElem_of_mem hm
    rw [List.length_take] at hi
    apply hf i (by omega)
    rw [getD_of_lt l i (by omega)]
    simpa using he
  conv_lhs => rw [← take_append_getD_drop l k hk]
  rw [List.erase_append_right _ hn, hd, List.erase_cons_head]

/-! ### One bucket of the store -/

/-- An operation on one bucket leaves the slots of the others. -/
theorem slotsOf_of_outside {m m' : Memory} {b b' : Nat}
    (h : OutsideBucketUnchanged m m' b) (hb : b' ≠ b) :
    slotsOf m' b' = slotsOf m b' := by
  unfold slotsOf
  rw [decodeBucket_congr]
  intro i hi
  unfold memRead wordAddr
  rw [h _ (by omega), h _ (by omega), h _ (by omega), h _ (by omega)]

/-- A lookup that hits moves the digest to the front (R123). -/
theorem lookup_moved {m : Memory} {b : Nat} {d : Digest} (h : Memory.wf m = true)
    (hm : d ∈ slotsOf m b) : (lookup m b d).1 = true ∧ MovedToFront m (lookup m b d).2 b d := by
  rcases lookup_cases m b d with ⟨hn, he⟩ | ⟨k, hk, hf, hd, -, he⟩
  · exact absurd hm hn
  · refine ⟨by rw [he], ?_, ?_, ?_⟩ <;> rw [he]
    · rw [slotsOf_promote h hk, hd, erase_of_findSlot _ _ _ hf]; rfl
    · exact stampOf_promote h hk
    · exact fun a ha => readByte_promote_outside k ha

/-- A lookup that misses changes nothing (R123). -/
theorem lookup_missed {m : Memory} {b : Nat} {d : Digest} (hm : d ∉ slotsOf m b) :
    lookup m b d = (false, m) := by
  rcases lookup_cases m b d with ⟨hn, he⟩ | ⟨k, hk, hf, hd, hm', he⟩
  · exact he
  · exact absurd hm' hm

/-- A lookup hits exactly when the digest is among the 21 slots. -/
theorem lookup_fst_eq_decide (m : Memory) (b : Nat) (d : Digest) :
    (lookup m b d).1 = decide (d ∈ slotsOf m b) := by
  have := lookup_found_iff m b d
  by_cases h : d ∈ slotsOf m b <;> simp_all

/-- A lookup of the digest at the front hits and changes nothing. -/
theorem lookup_front {m : Memory} {b : Nat} {d : Digest} {l : List Digest} (h : Memory.wf m = true)
    (hs : slotsOf m b = d :: l) : lookup m b d = (true, m) := by
  rcases lookup_cases m b d with ⟨hn, he⟩ | ⟨k, hk, hf, hd, hm', he⟩
  · rw [hs] at hn; simp at hn
  · rw [hs, findSlot_cons_self] at hf
    obtain rfl : 0 = k := by simpa using hf
    rw [he, promote_eq, hs]
    have : (⟨shiftBack (d :: l) 0 ((d :: l).getD 0 0), (decodeBucket m b).stamp⟩ :
        LogicalBucket) = decodeBucket m b := by
      show (⟨d :: l, (decodeBucket m b).stamp⟩ : LogicalBucket) = _
      rw [← hs]; rfl
    rw [this, encodeBucket_decodeBucket b h]

/-- Inserting at the front and stamping (R143, R162). -/
theorem insertFront_setStamp_inserted {m : Memory} (b : Nat) (d : Digest) (v : Byte)
    (h : Memory.wf m = true) :
    InsertedAtFront m (setStamp (insertFront m b d) b v) b d v := by
  have := insertFront_setStamp_spec b d v h
  refine ⟨?_, ?_, fun a ha => ?_⟩
  · rw [slotsOf, this, shiftBack_twenty _ (slotsOf_length m b)]
  · rw [stampOf_eq, this]
  · rw [readByte_setStamp_outside v ha, readByte_insertFront_outside d ha]

/-- `Compact` at the position `Find` gives (R185). -/
theorem compact_removed {m : Memory} {b k : Nat} {d : Digest} (h : Memory.wf m = true)
    (hf : findSlot (slotsOf m b) d = some k) : RemovedAndCompacted m (compact m b k) b d := by
  have hk := (findSlot_eq_some hf).1
  rw [slotsOf_length] at hk
  refine ⟨?_, stampOf_compact h (by omega), fun a ha => readByte_compact_outside k ha⟩
  rw [slotsOf_compact h (by omega), erase_of_findSlot _ _ _ hf]; rfl

end Sys2Proof.Machine
end

