-- ==== Sys2Proof/Laws/Decode.lean ====
section
/-! SUPPORT. Bit fields of command words, and what the decoder can answer, said once. -/

namespace Sys2Proof

/-! ### Fields of a concatenation -/

theorem extract_append_low {m n : Nat} (a : BitVec m) (b : BitVec n) :
    (a ++ b).extractLsb' 0 n = b := by
  apply BitVec.eq_of_getLsbD_eq
  intro i hi
  simp only [BitVec.getLsbD_extractLsb', BitVec.getLsbD_append]
  rw [if_pos (by omega)]
  simp [hi]

theorem extract_append_high {m n : Nat} (a : BitVec m) (b : BitVec n) :
    (a ++ b).extractLsb' n m = a := by
  apply BitVec.eq_of_getLsbD_eq
  intro i hi
  simp only [BitVec.getLsbD_extractLsb', BitVec.getLsbD_append]
  rw [if_neg (by omega)]
  simp [hi]

theorem append_extract {m n : Nat} (x : BitVec (m + n)) :
    x.extractLsb' n m ++ x.extractLsb' 0 n = x := by
  apply BitVec.eq_of_getLsbD_eq
  intro i hi
  simp only [BitVec.getLsbD_extractLsb', BitVec.getLsbD_append]
  split
  · simp [*]
  · have h1 : n + (i - n) = i := by omega
    have h2 : i - n < m := by omega
    simp [h1, h2]

theorem extract_append3 {l m n : Nat} (a : BitVec l) (b : BitVec m) (c : BitVec n) :
    (a ++ (b ++ c)).extractLsb' (m + n) l = a ∧ (a ++ (b ++ c)).extractLsb' n m = b ∧
      (a ++ (b ++ c)).extractLsb' 0 n = c := by
  refine ⟨extract_append_high _ _, ?_, ?_⟩ <;>
  · apply BitVec.eq_of_getLsbD_eq
    intro i hi
    simp only [BitVec.getLsbD_extractLsb', BitVec.getLsbD_append, hi, decide_true, Bool.true_and]
    split
    · split <;> first | omega | (congr 1; omega)
    · omega

theorem append_extract3 {l m n : Nat} (x : BitVec (l + (m + n))) :
    x.extractLsb' (m + n) l ++ (x.extractLsb' n m ++ x.extractLsb' 0 n) = x := by
  apply BitVec.eq_of_getLsbD_eq
  intro i hi
  simp only [BitVec.getLsbD_extractLsb', BitVec.getLsbD_append]
  split
  · split
    · simp [*]
    · have h1 : n + (i - n) = i := by omega
      have h2 : i - n < m := by omega
      simp [h1, h2]
  · have h1 : m + n + (i - (m + n)) = i := by omega
    have h2 : i - (m + n) < l := by omega
    simp [h1, h2]

theorem opField_append (op : BitVec 8) (arg : DWord) : opField (op ++ arg : CommandWord) = op :=
  extract_append_high op arg

theorem argField_append (op : BitVec 8) (arg : DWord) : argField (op ++ arg : CommandWord) = arg :=
  extract_append_low op arg

theorem opField_append_argField (c : CommandWord) : (opField c ++ argField c : CommandWord) = c :=
  append_extract (m := 8) (n := 64) c

/-! ### The decoder -/

/-- Everything the decoder can answer: one of the twelve rows of R75, or an illegal opcode. -/
theorem decodeFields_cases (op : BitVec 8) (arg : DWord) :
    (op = 0x01 ∧ decodeFields op arg = .ok (.create arg)) ∨
    (op = 0x02 ∧ decodeFields op arg = .ok (.destroy arg)) ∨
    (op = 0x03 ∧ decodeFields op arg = .ok (.flush arg)) ∨
    (op = 0x04 ∧ decodeFields op arg =
      .ok (.rdreg (arg.extractLsb' 8 56) (arg.extractLsb' 0 8))) ∨
    (op = 0x10 ∧ decodeFields op arg = .ok (.check arg)) ∨
    (op = 0x11 ∧ decodeFields op arg = .ok (.set arg)) ∨
    (op = 0x12 ∧ decodeFields op arg = .ok (.delete arg)) ∨
    (op = 0x20 ∧ decodeFields op arg = .ok (.deriv1 arg)) ∨
    (op = 0x21 ∧ decodeFields op arg = .ok (.deriv2 arg)) ∨
    (op = 0x30 ∧ decodeFields op arg =
      .ok (.blkup (arg.extractLsb' 32 32) (arg.extractLsb' 8 24) (arg.extractLsb' 0 8))) ∨
    (op = 0x31 ∧ decodeFields op arg =
      .ok (.blkupc (arg.extractLsb' 32 32) (arg.extractLsb' 8 24) (arg.extractLsb' 0 8))) ∨
    (op = 0x32 ∧ decodeFields op arg =
      .ok (.rdw (arg.extractLsb' 32 32) (arg.extractLsb' 4 28) (arg.extractLsb' 0 4))) ∨
    (op ∉ [0x01#8, 0x02, 0x03, 0x04, 0x10, 0x11, 0x12, 0x20, 0x21, 0x30, 0x31, 0x32] ∧
      decodeFields op arg = .error (.illegalOpcode op)) := by
  by_cases h : op ∈ [0x01#8, 0x02, 0x03, 0x04, 0x10, 0x11, 0x12, 0x20, 0x21, 0x30, 0x31, 0x32]
  · simp only [List.mem_cons, List.not_mem_nil, or_false] at h
    rcases h with rfl | rfl | rfl | rfl | rfl | rfl | rfl | rfl | rfl | rfl | rfl | rfl <;>
      simp [decodeFields]
  · have hne : ∀ x ∈ [0x01#8, 0x02, 0x03, 0x04, 0x10, 0x11, 0x12, 0x20, 0x21, 0x30, 0x31, 0x32],
        op ≠ x := fun x hx e => h (e ▸ hx)
    have herr : decodeFields op arg = .error (.illegalOpcode op) := by
      unfold decodeFields
      iterate 12 rw [if_neg (hne _ (by simp))]
    simp only [herr, h, not_false_eq_true, and_self, or_true]

/-- The decoder on the fields of a known opcode. -/
theorem decode_append (op : BitVec 8) (arg : DWord) :
    decode (op ++ arg : CommandWord) = decodeFields op arg := by
  rw [decode, opField_append, argField_append]

end Sys2Proof
end

