-- ==== Sys2Proof/Laws/State.lean ====
section
/-! SUPPORT. One lemma per field per state update, so that no later proof unfolds an update. -/

namespace Sys2Proof.Machine

/-! ### `respond` -/

@[simp] theorem respond_config (s : State) (res : Bool) (val : DWord) :
    (respond res val s).config = s.config := rfl
@[simp] theorem respond_inputs (s : State) (res : Bool) (val : DWord) :
    (respond res val s).inputs = s.inputs := rfl
@[simp] theorem respond_randIn (s : State) (res : Bool) (val : DWord) :
    (respond res val s).randIn = s.randIn := rfl
@[simp] theorem respond_rsp (s : State) (res : Bool) (val : DWord) :
    (respond res val s).rsp = some ⟨.ok, res, val⟩ := rfl
@[simp] theorem respond_cfg (s : State) (res : Bool) (val : DWord) :
    (respond res val s).cfg = s.cfg := rfl
@[simp] theorem respond_errs (s : State) (res : Bool) (val : DWord) :
    (respond res val s).errs = s.errs := rfl
@[simp] theorem respond_lasterr (s : State) (res : Bool) (val : DWord) :
    (respond res val s).lasterr = s.lasterr := rfl
@[simp] theorem respond_ibits (s : State) (res : Bool) (val : DWord) :
    (respond res val s).ibits = s.ibits := rfl
@[simp] theorem respond_seed (s : State) (res : Bool) (val : DWord) :
    (respond res val s).seed = s.seed := rfl
@[simp] theorem respond_epoch (s : State) (res : Bool) (val : DWord) :
    (respond res val s).epoch = s.epoch := rfl
@[simp] theorem respond_inscnt (s : State) (res : Bool) (val : DWord) :
    (respond res val s).inscnt = s.inscnt := rfl
@[simp] theorem respond_thresh (s : State) (res : Bool) (val : DWord) :
    (respond res val s).thresh = s.thresh := rfl
@[simp] theorem respond_drops (s : State) (res : Bool) (val : DWord) :
    (respond res val s).drops = s.drops := rfl
@[simp] theorem respond_mem (s : State) (res : Bool) (val : DWord) :
    (respond res val s).mem = s.mem := rfl
@[simp] theorem respond_freeCount (s : State) (res : Bool) (val : DWord) :
    (respond res val s).freeCount = s.freeCount := rfl

/-! ### `refuse` -/

@[simp] theorem refuse_config (s : State) (e : ErrCode) : (refuse e s).config = s.config := rfl
@[simp] theorem refuse_inputs (s : State) (e : ErrCode) : (refuse e s).inputs = s.inputs := rfl
@[simp] theorem refuse_randIn (s : State) (e : ErrCode) : (refuse e s).randIn = s.randIn := rfl
@[simp] theorem refuse_rsp (s : State) (e : ErrCode) : (refuse e s).rsp = some ⟨e, false, 0⟩ := rfl
@[simp] theorem refuse_cfg (s : State) (e : ErrCode) : (refuse e s).cfg = s.cfg := rfl
@[simp] theorem refuse_errs (s : State) (e : ErrCode) : (refuse e s).errs = true := rfl
@[simp] theorem refuse_lasterr (s : State) (e : ErrCode) : (refuse e s).lasterr = e := rfl
@[simp] theorem refuse_ibits (s : State) (e : ErrCode) : (refuse e s).ibits = s.ibits := rfl
@[simp] theorem refuse_seed (s : State) (e : ErrCode) : (refuse e s).seed = s.seed := rfl
@[simp] theorem refuse_epoch (s : State) (e : ErrCode) : (refuse e s).epoch = s.epoch := rfl
@[simp] theorem refuse_inscnt (s : State) (e : ErrCode) : (refuse e s).inscnt = s.inscnt := rfl
@[simp] theorem refuse_thresh (s : State) (e : ErrCode) : (refuse e s).thresh = s.thresh := rfl
@[simp] theorem refuse_drops (s : State) (e : ErrCode) : (refuse e s).drops = s.drops := rfl
@[simp] theorem refuse_mem (s : State) (e : ErrCode) : (refuse e s).mem = s.mem := rfl
@[simp] theorem refuse_freeCount (s : State) (e : ErrCode) :
    (refuse e s).freeCount = s.freeCount := rfl

/-! ### `setMem` -/

@[simp] theorem setMem_config (s : State) (m : Memory) : (setMem s m).config = s.config := rfl
@[simp] theorem setMem_inputs (s : State) (m : Memory) : (setMem s m).inputs = s.inputs := rfl
@[simp] theorem setMem_randIn (s : State) (m : Memory) : (setMem s m).randIn = s.randIn := rfl
@[simp] theorem setMem_rsp (s : State) (m : Memory) : (setMem s m).rsp = s.rsp := rfl
@[simp] theorem setMem_cfg (s : State) (m : Memory) : (setMem s m).cfg = s.cfg := rfl
@[simp] theorem setMem_errs (s : State) (m : Memory) : (setMem s m).errs = s.errs := rfl
@[simp] theorem setMem_lasterr (s : State) (m : Memory) : (setMem s m).lasterr = s.lasterr := rfl
@[simp] theorem setMem_ibits (s : State) (m : Memory) : (setMem s m).ibits = s.ibits := rfl
@[simp] theorem setMem_seed (s : State) (m : Memory) : (setMem s m).seed = s.seed := rfl
@[simp] theorem setMem_epoch (s : State) (m : Memory) : (setMem s m).epoch = s.epoch := rfl
@[simp] theorem setMem_inscnt (s : State) (m : Memory) : (setMem s m).inscnt = s.inscnt := rfl
@[simp] theorem setMem_thresh (s : State) (m : Memory) : (setMem s m).thresh = s.thresh := rfl
@[simp] theorem setMem_drops (s : State) (m : Memory) : (setMem s m).drops = s.drops := rfl
@[simp] theorem setMem_mem (s : State) (m : Memory) : (setMem s m).mem = m := rfl
@[simp] theorem setMem_freeCount (s : State) (m : Memory) :
    (setMem s m).freeCount = s.freeCount := rfl

/-! ### `voidTable` -/

@[simp] theorem voidTable_config (s : State) : (voidTable s).config = s.config := rfl
@[simp] theorem voidTable_inputs (s : State) : (voidTable s).inputs = s.inputs := rfl
@[simp] theorem voidTable_randIn (s : State) : (voidTable s).randIn = s.randIn := rfl
@[simp] theorem voidTable_rsp (s : State) : (voidTable s).rsp = s.rsp := rfl
@[simp] theorem voidTable_cfg (s : State) : (voidTable s).cfg = s.cfg := rfl
@[simp] theorem voidTable_errs (s : State) : (voidTable s).errs = s.errs := rfl
@[simp] theorem voidTable_lasterr (s : State) : (voidTable s).lasterr = s.lasterr := rfl
@[simp] theorem voidTable_ibits (s : State) :
    (voidTable s).ibits = Config.noValueIbits s.freeCount := rfl
@[simp] theorem voidTable_seed (s : State) :
    (voidTable s).seed = Config.noValueSeed s.freeCount := rfl
@[simp] theorem voidTable_epoch (s : State) :
    (voidTable s).epoch = Config.noValueEpoch s.freeCount := rfl
@[simp] theorem voidTable_inscnt (s : State) :
    (voidTable s).inscnt = Config.noValueInscnt s.freeCount := rfl
@[simp] theorem voidTable_thresh (s : State) :
    (voidTable s).thresh = Config.noValueThresh s.freeCount := rfl
@[simp] theorem voidTable_drops (s : State) :
    (voidTable s).drops = Config.noValueDrops s.freeCount := rfl
@[simp] theorem voidTable_mem (s : State) :
    (voidTable s).mem = storeOf s.config (Config.noValueStore s.freeCount) := rfl
@[simp] theorem voidTable_freeCount (s : State) : (voidTable s).freeCount = s.freeCount + 1 := rfl

/-! ### `hardReset` -/

@[simp] theorem hardReset_config (s : State) : (hardReset s).config = s.config := rfl
@[simp] theorem hardReset_inputs (s : State) : (hardReset s).inputs = s.inputs := rfl
@[simp] theorem hardReset_randIn (s : State) : (hardReset s).randIn = s.randIn := rfl
@[simp] theorem hardReset_rsp (s : State) : (hardReset s).rsp = none := rfl
@[simp] theorem hardReset_cfg (s : State) : (hardReset s).cfg = false := rfl
@[simp] theorem hardReset_errs (s : State) : (hardReset s).errs = false := rfl
@[simp] theorem hardReset_lasterr (s : State) : (hardReset s).lasterr = .ok := rfl
@[simp] theorem hardReset_ibits (s : State) :
    (hardReset s).ibits = Config.noValueIbits s.freeCount := rfl
@[simp] theorem hardReset_seed (s : State) :
    (hardReset s).seed = Config.noValueSeed s.freeCount := rfl
@[simp] theorem hardReset_epoch (s : State) :
    (hardReset s).epoch = Config.noValueEpoch s.freeCount := rfl
@[simp] theorem hardReset_inscnt (s : State) :
    (hardReset s).inscnt = Config.noValueInscnt s.freeCount := rfl
@[simp] theorem hardReset_thresh (s : State) :
    (hardReset s).thresh = Config.noValueThresh s.freeCount := rfl
@[simp] theorem hardReset_drops (s : State) :
    (hardReset s).drops = Config.noValueDrops s.freeCount := rfl
@[simp] theorem hardReset_mem (s : State) :
    (hardReset s).mem = storeOf s.config (Config.noValueStore s.freeCount) := rfl
@[simp] theorem hardReset_freeCount (s : State) : (hardReset s).freeCount = s.freeCount + 1 := rfl

/-! ### `newTable` -/

@[simp] theorem newTable_config (s : State) (ib : Nat) (draw : DWord) :
    (newTable ib draw s).config = s.config := rfl
@[simp] theorem newTable_inputs (s : State) (ib : Nat) (draw : DWord) :
    (newTable ib draw s).inputs = s.inputs := rfl
@[simp] theorem newTable_randIn (s : State) (ib : Nat) (draw : DWord) :
    (newTable ib draw s).randIn = s.randIn := rfl
@[simp] theorem newTable_rsp (s : State) (ib : Nat) (draw : DWord) :
    (newTable ib draw s).rsp = s.rsp := rfl
@[simp] theorem newTable_cfg (s : State) (ib : Nat) (draw : DWord) :
    (newTable ib draw s).cfg = true := rfl
@[simp] theorem newTable_errs (s : State) (ib : Nat) (draw : DWord) :
    (newTable ib draw s).errs = s.errs := rfl
@[simp] theorem newTable_lasterr (s : State) (ib : Nat) (draw : DWord) :
    (newTable ib draw s).lasterr = s.lasterr := rfl
@[simp] theorem newTable_ibits (s : State) (ib : Nat) (draw : DWord) :
    (newTable ib draw s).ibits = ib := rfl
@[simp] theorem newTable_seed (s : State) (ib : Nat) (draw : DWord) :
    (newTable ib draw s).seed = draw := rfl
@[simp] theorem newTable_epoch (s : State) (ib : Nat) (draw : DWord) :
    (newTable ib draw s).epoch = 1 := rfl
@[simp] theorem newTable_inscnt (s : State) (ib : Nat) (draw : DWord) :
    (newTable ib draw s).inscnt = 0 := rfl
@[simp] theorem newTable_thresh (s : State) (ib : Nat) (draw : DWord) :
    (newTable ib draw s).thresh = threshOf ib := rfl
@[simp] theorem newTable_drops (s : State) (ib : Nat) (draw : DWord) :
    (newTable ib draw s).drops = 0 := rfl
@[simp] theorem newTable_mem (s : State) (ib : Nat) (draw : DWord) :
    (newTable ib draw s).mem = clearBuckets s.mem (tableBuckets ib) := rfl
@[simp] theorem newTable_freeCount (s : State) (ib : Nat) (draw : DWord) :
    (newTable ib draw s).freeCount = s.freeCount := rfl

/-! ### `placeDigest` -/

@[simp] theorem placeDigest_config (s : State) (dst : Destination) :
    (placeDigest dst s).config = s.config := rfl
@[simp] theorem placeDigest_inputs (s : State) (dst : Destination) :
    (placeDigest dst s).inputs = s.inputs := rfl
@[simp] theorem placeDigest_randIn (s : State) (dst : Destination) :
    (placeDigest dst s).randIn = s.randIn := rfl
@[simp] theorem placeDigest_rsp (s : State) (dst : Destination) :
    (placeDigest dst s).rsp = s.rsp := rfl
@[simp] theorem placeDigest_cfg (s : State) (dst : Destination) :
    (placeDigest dst s).cfg = s.cfg := rfl
@[simp] theorem placeDigest_errs (s : State) (dst : Destination) :
    (placeDigest dst s).errs = s.errs := rfl
@[simp] theorem placeDigest_lasterr (s : State) (dst : Destination) :
    (placeDigest dst s).lasterr = s.lasterr := rfl
@[simp] theorem placeDigest_ibits (s : State) (dst : Destination) :
    (placeDigest dst s).ibits = s.ibits := rfl
@[simp] theorem placeDigest_seed (s : State) (dst : Destination) :
    (placeDigest dst s).seed = s.seed := rfl
@[simp] theorem placeDigest_epoch (s : State) (dst : Destination) :
    (placeDigest dst s).epoch = s.epoch := rfl
@[simp] theorem placeDigest_inscnt (s : State) (dst : Destination) :
    (placeDigest dst s).inscnt = s.inscnt := rfl
@[simp] theorem placeDigest_thresh (s : State) (dst : Destination) :
    (placeDigest dst s).thresh = s.thresh := rfl
@[simp] theorem placeDigest_drops (s : State) (dst : Destination) :
    (placeDigest dst s).drops = s.drops := rfl
@[simp] theorem placeDigest_mem (s : State) (dst : Destination) :
    (placeDigest dst s).mem =
      setStamp (insertFront s.mem dst.bucket.toNat dst.digest) dst.bucket.toNat s.epoch := rfl
@[simp] theorem placeDigest_freeCount (s : State) (dst : Destination) :
    (placeDigest dst s).freeCount = s.freeCount := rfl

/-! ### `issueNext` -/

@[simp] theorem issueNext_config (s : State) (c : CommandWord) :
    (issueNext c s).config = s.config := rfl
@[simp] theorem issueNext_inputs (s : State) (c : CommandWord) :
    (issueNext c s).inputs = .issue c :: s.inputs := rfl
@[simp] theorem issueNext_randIn (s : State) (c : CommandWord) :
    (issueNext c s).randIn = s.randIn := rfl
@[simp] theorem issueNext_rsp (s : State) (c : CommandWord) : (issueNext c s).rsp = s.rsp := rfl
@[simp] theorem issueNext_cfg (s : State) (c : CommandWord) : (issueNext c s).cfg = s.cfg := rfl
@[simp] theorem issueNext_errs (s : State) (c : CommandWord) : (issueNext c s).errs = s.errs := rfl
@[simp] theorem issueNext_lasterr (s : State) (c : CommandWord) :
    (issueNext c s).lasterr = s.lasterr := rfl
@[simp] theorem issueNext_ibits (s : State) (c : CommandWord) :
    (issueNext c s).ibits = s.ibits := rfl
@[simp] theorem issueNext_seed (s : State) (c : CommandWord) : (issueNext c s).seed = s.seed := rfl
@[simp] theorem issueNext_epoch (s : State) (c : CommandWord) :
    (issueNext c s).epoch = s.epoch := rfl
@[simp] theorem issueNext_inscnt (s : State) (c : CommandWord) :
    (issueNext c s).inscnt = s.inscnt := rfl
@[simp] theorem issueNext_thresh (s : State) (c : CommandWord) :
    (issueNext c s).thresh = s.thresh := rfl
@[simp] theorem issueNext_drops (s : State) (c : CommandWord) :
    (issueNext c s).drops = s.drops := rfl
@[simp] theorem issueNext_mem (s : State) (c : CommandWord) : (issueNext c s).mem = s.mem := rfl
@[simp] theorem issueNext_freeCount (s : State) (c : CommandWord) :
    (issueNext c s).freeCount = s.freeCount := rfl

/-! ### `countDrop` -/

@[simp] theorem countDrop_config (s : State) (drop : Bool) :
    (countDrop drop s).config = s.config := by
  unfold countDrop; split <;> rfl
@[simp] theorem countDrop_inputs (s : State) (drop : Bool) :
    (countDrop drop s).inputs = s.inputs := by
  unfold countDrop; split <;> rfl
@[simp] theorem countDrop_randIn (s : State) (drop : Bool) :
    (countDrop drop s).randIn = s.randIn := by
  unfold countDrop; split <;> rfl
@[simp] theorem countDrop_rsp (s : State) (drop : Bool) :
    (countDrop drop s).rsp = s.rsp := by
  unfold countDrop; split <;> rfl
@[simp] theorem countDrop_cfg (s : State) (drop : Bool) :
    (countDrop drop s).cfg = s.cfg := by
  unfold countDrop; split <;> rfl
@[simp] theorem countDrop_errs (s : State) (drop : Bool) :
    (countDrop drop s).errs = s.errs := by
  unfold countDrop; split <;> rfl
@[simp] theorem countDrop_lasterr (s : State) (drop : Bool) :
    (countDrop drop s).lasterr = s.lasterr := by
  unfold countDrop; split <;> rfl
@[simp] theorem countDrop_ibits (s : State) (drop : Bool) :
    (countDrop drop s).ibits = s.ibits := by
  unfold countDrop; split <;> rfl
@[simp] theorem countDrop_seed (s : State) (drop : Bool) :
    (countDrop drop s).seed = s.seed := by
  unfold countDrop; split <;> rfl
@[simp] theorem countDrop_epoch (s : State) (drop : Bool) :
    (countDrop drop s).epoch = s.epoch := by
  unfold countDrop; split <;> rfl
@[simp] theorem countDrop_inscnt (s : State) (drop : Bool) :
    (countDrop drop s).inscnt = s.inscnt := by
  unfold countDrop; split <;> rfl
@[simp] theorem countDrop_thresh (s : State) (drop : Bool) :
    (countDrop drop s).thresh = s.thresh := by
  unfold countDrop; split <;> rfl
@[simp] theorem countDrop_drops (s : State) (drop : Bool) :
    (countDrop drop s).drops = if drop then s.drops + 1 else s.drops := by
  unfold countDrop; split <;> rfl
@[simp] theorem countDrop_mem (s : State) (drop : Bool) :
    (countDrop drop s).mem = s.mem := by
  unfold countDrop; split <;> rfl
@[simp] theorem countDrop_freeCount (s : State) (drop : Bool) :
    (countDrop drop s).freeCount = s.freeCount := by
  unfold countDrop; split <;> rfl

/-! ### `advanceAging` -/

@[simp] theorem advanceAging_config (s : State) :
    (advanceAging s).config = s.config := by
  unfold advanceAging; split <;> rfl
@[simp] theorem advanceAging_inputs (s : State) :
    (advanceAging s).inputs = s.inputs := by
  unfold advanceAging; split <;> rfl
@[simp] theorem advanceAging_randIn (s : State) :
    (advanceAging s).randIn = s.randIn := by
  unfold advanceAging; split <;> rfl
@[simp] theorem advanceAging_rsp (s : State) :
    (advanceAging s).rsp = s.rsp := by
  unfold advanceAging; split <;> rfl
@[simp] theorem advanceAging_cfg (s : State) :
    (advanceAging s).cfg = s.cfg := by
  unfold advanceAging; split <;> rfl
@[simp] theorem advanceAging_errs (s : State) :
    (advanceAging s).errs = s.errs := by
  unfold advanceAging; split <;> rfl
@[simp] theorem advanceAging_lasterr (s : State) :
    (advanceAging s).lasterr = s.lasterr := by
  unfold advanceAging; split <;> rfl
@[simp] theorem advanceAging_ibits (s : State) :
    (advanceAging s).ibits = s.ibits := by
  unfold advanceAging; split <;> rfl
@[simp] theorem advanceAging_seed (s : State) :
    (advanceAging s).seed = s.seed := by
  unfold advanceAging; split <;> rfl
@[simp] theorem advanceAging_epoch (s : State) :
    (advanceAging s).epoch = if s.thresh.toNat < (s.inscnt + 1).toNat then s.epoch + 1 else s.epoch := by
  unfold advanceAging; split <;> rfl
@[simp] theorem advanceAging_inscnt (s : State) :
    (advanceAging s).inscnt = if s.thresh.toNat < (s.inscnt + 1).toNat then 0 else s.inscnt + 1 := by
  unfold advanceAging; split <;> rfl
@[simp] theorem advanceAging_thresh (s : State) :
    (advanceAging s).thresh = s.thresh := by
  unfold advanceAging; split <;> rfl
@[simp] theorem advanceAging_drops (s : State) :
    (advanceAging s).drops = s.drops := by
  unfold advanceAging; split <;> rfl
@[simp] theorem advanceAging_mem (s : State) :
    (advanceAging s).mem = s.mem := by
  unfold advanceAging; split <;> rfl
@[simp] theorem advanceAging_freeCount (s : State) :
    (advanceAging s).freeCount = s.freeCount := by
  unfold advanceAging; split <;> rfl

end Sys2Proof.Machine
end

