-- ==== Sys2Proof/Laws/Exec.lean ====
section
/-! SUPPORT. What the checks of R223 and the meanings answer, said once: the provers cite these and do
not unfold a meaning again. -/

namespace Sys2Proof.Machine

/-! ### The checks -/

@[simp] theorem requireOperand_true (s : State) (k : Result) : requireOperand true s k = k := rfl

@[simp] theorem requireOperand_false (s : State) (k : Result) :
    requireOperand false s k = .next (refuse .operand s) := rfl

theorem requireTable_of_cfg {s : State} (h : s.cfg = true) (k : Result) : requireTable s k = k := by
  simp [requireTable, h]

theorem requireTable_of_not_cfg {s : State} (h : s.cfg = false) (k : Result) :
    requireTable s k = .next (refuse .noTable s) := by
  simp [requireTable, h]

theorem requireRange_of_lt {s : State} {idx : Nat} (h : idx < tableBuckets s.ibits) (k : Result) :
    requireRange idx s k = k := if_pos h

theorem requireRange_of_le {s : State} {idx : Nat} (h : tableBuckets s.ibits ≤ idx) (k : Result) :
    requireRange idx s k = .next (refuse .range s) := if_neg (by omega)

theorem requireStore_of_le {s : State} (h : s.ibits ≤ s.config.ibitsMax) (k : Result) :
    requireStore s k = k := if_pos h

theorem requireStore_of_lt {s : State} (h : s.config.ibitsMax < s.ibits) (k : Result) :
    requireStore s k = .fault .tableBeyondStore := if_neg (by omega)

/-! ### The operand checks -/

@[simp] theorem formatZOk_iff (arg : DWord) : formatZOk arg = true ↔ arg = 0 := by
  simp [formatZOk]

@[simp] theorem formatROk_iff (rsv : BitVec 56) (rn : BitVec 8) :
    formatROk rsv rn = true ↔ rsv = 0 ∧ rn.toNat ≤ 10 := by
  simp [formatROk]

@[simp] theorem formatBOk_iff (d : Digest) (rsv : BitVec 8) :
    formatBOk d rsv = true ↔ rsv = 0 ∧ d ≠ 0 := by
  simp [formatBOk]

@[simp] theorem formatMOk_iff (rsv : BitVec 28) : formatMOk rsv = true ↔ rsv = 0 := by
  simp [formatMOk]

/-! ### The table operations, with a table in the store -/

section
variable {s : State}

/-- The three outcomes of `CHECK` (R180). -/
theorem execCheck_of_ready (h : DWord) (hc : s.cfg = true) (hi : s.ibits ≤ s.config.ibitsMax) :
    execCheck h s =
      if (lookup s.mem (derive s.config s.ibits h).index1.toNat
          (derive s.config s.ibits h).digest1).1 then
        .next (respond true 0 (setMem s (lookup s.mem (derive s.config s.ibits h).index1.toNat
          (derive s.config s.ibits h).digest1).2))
      else
        .next (respond (lookup s.mem (derive s.config s.ibits h).index2.toNat
            (derive s.config s.ibits h).digest2).1 0
          (setMem s (lookup s.mem (derive s.config s.ibits h).index2.toNat
            (derive s.config s.ibits h).digest2).2)) := by
  rw [execCheck, requireTable_of_cfg hc, requireStore_of_le hi]

/-- A `SET` whose digest is in the first candidate bucket (R157). -/
theorem execSet_of_mem1 (h : DWord) (hc : s.cfg = true) (hi : s.ibits ≤ s.config.ibitsMax)
    (h1 : (derive s.config s.ibits h).digest1 ∈
      slotsOf s.mem (derive s.config s.ibits h).index1.toNat) :
    execSet h s = .next (respond true 0 (setMem s
      (lookup s.mem (derive s.config s.ibits h).index1.toNat
        (derive s.config s.ibits h).digest1).2)) := by
  rw [execSet, requireTable_of_cfg hc, requireStore_of_le hi]
  simp only [lookupCountingEmpty_eq]
  rw [if_pos ((lookup_found_iff _ _ _).2 h1)]

/-- A `SET` whose digest is in the second candidate bucket only (R157). -/
theorem execSet_of_mem2 (h : DWord) (hc : s.cfg = true) (hi : s.ibits ≤ s.config.ibitsMax)
    (h1 : (derive s.config s.ibits h).digest1 ∉
      slotsOf s.mem (derive s.config s.ibits h).index1.toNat)
    (h2 : (derive s.config s.ibits h).digest2 ∈
      slotsOf s.mem (derive s.config s.ibits h).index2.toNat) :
    execSet h s = .next (respond true 0 (setMem s
      (lookup s.mem (derive s.config s.ibits h).index2.toNat
        (derive s.config s.ibits h).digest2).2)) := by
  rw [execSet, requireTable_of_cfg hc, requireStore_of_le hi]
  simp only [lookupCountingEmpty_eq]
  rw [if_neg (fun e => h1 ((lookup_found_iff _ _ _).1 e)), if_pos ((lookup_found_iff _ _ _).2 h2)]

/-- A `SET` whose digest is in neither candidate bucket inserts it (R158 to R164). -/
theorem execSet_of_not_mem (h : DWord) (hc : s.cfg = true) (hi : s.ibits ≤ s.config.ibitsMax)
    (h1 : (derive s.config s.ibits h).digest1 ∉
      slotsOf s.mem (derive s.config s.ibits h).index1.toNat)
    (h2 : (derive s.config s.ibits h).digest2 ∉
      slotsOf s.mem (derive s.config s.ibits h).index2.toNat) :
    ∃ dst, dst = arbitrate (derive s.config s.ibits h)
        (emptyCount (slotsOf s.mem (derive s.config s.ibits h).index1.toNat))
        (emptyCount (slotsOf s.mem (derive s.config s.ibits h).index2.toNat)) s.epoch
        (stampOf s.mem (derive s.config s.ibits h).index1.toNat)
        (stampOf s.mem (derive s.config s.ibits h).index2.toNat) ∧
      execSet h s =
        .next (respond false 0 (advanceAging (placeDigest dst (countDrop dst.drop s)))) := by
  refine ⟨_, rfl, ?_⟩
  rw [execSet, requireTable_of_cfg hc, requireStore_of_le hi]
  simp only [lookupCountingEmpty_eq]
  rw [if_neg (fun e => h1 ((lookup_found_iff _ _ _).1 e)),
    if_neg (fun e => h2 ((lookup_found_iff _ _ _).1 e))]

/-- The arbiter answers one of the two candidates (R166). -/
theorem arbitrate_cases (c : Candidates) (e1 e2 : Nat) (ep s1 s2 : Byte) :
    ((arbitrate c e1 e2 ep s1 s2).bucket = c.index1 ∧
      (arbitrate c e1 e2 ep s1 s2).digest = c.digest1) ∨
    ((arbitrate c e1 e2 ep s1 s2).bucket = c.index2 ∧
      (arbitrate c e1 e2 ep s1 s2).digest = c.digest2) := by
  unfold arbitrate
  repeat' split
  all_goals simp

/-- The three outcomes of `DELETE` (R188). -/
theorem execDelete_cases (h : DWord) (hc : s.cfg = true) (hi : s.ibits ≤ s.config.ibitsMax) :
    (∃ k, findSlot (slotsOf s.mem (derive s.config s.ibits h).index1.toNat)
        (derive s.config s.ibits h).digest1 = some k ∧
      execDelete h s = .next (respond true 0 (setMem s
        (compact s.mem (derive s.config s.ibits h).index1.toNat k)))) ∨
    ((derive s.config s.ibits h).digest1 ∉
        slotsOf s.mem (derive s.config s.ibits h).index1.toNat ∧
      ∃ k, findSlot (slotsOf s.mem (derive s.config s.ibits h).index2.toNat)
        (derive s.config s.ibits h).digest2 = some k ∧
      execDelete h s = .next (respond true 0 (setMem s
        (compact s.mem (derive s.config s.ibits h).index2.toNat k)))) ∨
    ((derive s.config s.ibits h).digest1 ∉
        slotsOf s.mem (derive s.config s.ibits h).index1.toNat ∧
      (derive s.config s.ibits h).digest2 ∉
        slotsOf s.mem (derive s.config s.ibits h).index2.toNat ∧
      execDelete h s = .next (respond false 0 s)) := by
  rw [execDelete, requireTable_of_cfg hc, requireStore_of_le hi]
  simp only [← slotsOf.eq_1]
  cases h1 : findSlot (slotsOf s.mem (derive s.config s.ibits h).index1.toNat)
      (derive s.config s.ibits h).digest1 with
  | some k => exact .inl ⟨k, rfl, rfl⟩
  | none =>
    cases h2 : findSlot (slotsOf s.mem (derive s.config s.ibits h).index2.toNat)
        (derive s.config s.ibits h).digest2 with
    | some k => exact .inr (.inl ⟨findSlot_eq_none_iff.1 h1, k, rfl, rfl⟩)
    | none => exact .inr (.inr ⟨findSlot_eq_none_iff.1 h1, findSlot_eq_none_iff.1 h2, rfl⟩)

end

end Sys2Proof.Machine
end

