-- ==== Sys2Proof/Laws/Answers.lean ====
section
/-! SUPPORT. The numbers behind hash derivation, what the arbiter decides, and the inversion of `exec`:
every answer a command can give, said once. -/

namespace Sys2Proof.Machine

/-! ### Derivation and arbiter -/

/-- `IMASK` as a number (R27). -/
theorem imask_toNat {ib : Nat} (h : ib ≤ 63) : (imask ib).toNat = 2^ib - 1 := by
  unfold imask
  rw [BitVec.toNat_ofNat, Nat.mod_eq_of_lt]
  have : 2^ib < 2^64 := Nat.pow_lt_pow_right (by omega) (by omega)
  omega

/-- The product as a number (R101). -/
theorem hashProduct_toNat (h m : DWord) : (hashProduct h m).toNat = h.toNat * m.toNat % 2^64 := by
  simp [hashProduct]

/-- The index bits as a number (R102). -/
theorem indexBits_toNat (c : Config) {ib : Nat} (p : DWord) (h : ib ≤ 63) :
    (indexBits c ib p).toNat = p.toNat / 2^c.indexShift % 2^ib := by
  unfold indexBits
  rw [BitVec.toNat_and, imask_toNat h, BitVec.toNat_ushiftRight, Nat.shiftRight_eq_div_pow,
    Nat.and_two_pow_sub_one_eq_mod]

/-- A digest is never 0 (R104). -/
theorem digestBits_ne_zero (c : Config) (p : DWord) (hl : c.sentinel24 ≠ 0) : digestBits c p ≠ 0 := by
  unfold digestBits; split <;> assumption

/-- The age as a number modulo 256 (R13, R160). -/
theorem bucketAge_toNat (a b : Byte) : (bucketAge a b).toNat = (a.toNat + 256 - b.toNat) % 256 := by
  unfold bucketAge; rw [BitVec.toNat_sub]; congr 1; have := b.isLt; omega

/-- Everything the arbiter decides (R158 to R161, R166): when it takes the first candidate, and
when it drops. -/
theorem arbitrate_spec (c : Candidates) (e1 e2 : Nat) (ep s1 s2 : Byte) :
    let a1 := (ep.toNat + 256 - s1.toNat) % 256
    let a2 := (ep.toNat + 256 - s2.toNat) % 256
    let first := e2 < e1 ∨ (e1 = e2 ∧ 0 < e1) ∨
      (e1 = 0 ∧ e2 = 0 ∧ (a2 < a1 ∨ (a1 = a2 ∧ c.digest1.getLsbD 0 = false)))
    ((first ∧ (arbitrate c e1 e2 ep s1 s2).bucket = c.index1 ∧
        (arbitrate c e1 e2 ep s1 s2).digest = c.digest1) ∨
     (¬ first ∧ (arbitrate c e1 e2 ep s1 s2).bucket = c.index2 ∧
        (arbitrate c e1 e2 ep s1 s2).digest = c.digest2)) ∧
    ((arbitrate c e1 e2 ep s1 s2).drop = true ↔ e1 = 0 ∧ e2 = 0) := by
  intro a1 a2 first
  have h1 := bucketAge_toNat ep s1
  have h2 := bucketAge_toNat ep s2
  simp only [arbitrate, h1, h2]
  change _ ∧ _
  by_cases hb : c.digest1.getLsbD 0 = false <;>
  simp only [first] <;>
  (repeat' split) <;> simp_all <;> omega

/-! ### The checks, inverted -/

/-- How the operand check can answer a next state. -/
theorem requireOperand_eq_next {s t : State} {g : Bool} {k : Result}
    (h : requireOperand g s k = .next t) :
    (g = true ∧ k = .next t) ∨ (g = false ∧ t = refuse .operand s) := by
  cases g
  · injection h with h; exact .inr ⟨rfl, h.symm⟩
  · exact .inl ⟨rfl, h⟩

/-- How the table check can answer a next state. -/
theorem requireTable_eq_next {s t : State} {k : Result}
    (h : requireTable s k = .next t) :
    (s.cfg = true ∧ k = .next t) ∨ (s.cfg = false ∧ t = refuse .noTable s) := by
  cases hc : s.cfg
  · rw [requireTable_of_not_cfg hc] at h; injection h with h; exact .inr ⟨rfl, h.symm⟩
  · rw [requireTable_of_cfg hc] at h; exact .inl ⟨rfl, h⟩

/-- How the range check can answer a next state. -/
theorem requireRange_eq_next {s t : State} {x : Nat} {k : Result}
    (h : requireRange x s k = .next t) :
    (x < tableBuckets s.ibits ∧ k = .next t) ∨
      (tableBuckets s.ibits ≤ x ∧ t = refuse .range s) := by
  by_cases hx : x < tableBuckets s.ibits
  · rw [requireRange_of_lt hx] at h; exact .inl ⟨hx, h⟩
  · rw [requireRange_of_le (by omega)] at h; injection h with h; exact .inr ⟨by omega, h.symm⟩

/-- A command past the store check had its table in the store. -/
theorem requireStore_eq_next {s t : State} {k : Result}
    (h : requireStore s k = .next t) : s.ibits ≤ s.config.ibitsMax ∧ k = .next t := by
  by_cases hx : s.ibits ≤ s.config.ibitsMax
  · rw [requireStore_of_le hx] at h; exact ⟨hx, h⟩
  · rw [requireStore_of_lt (by omega)] at h; cases h

/-! ### Every answer of `exec` -/

/-- Everything a command can answer with a next state: a refusal, or its effect under the conditions in
which it has one. The three lookups and the two removals of the table operations are told apart. -/
inductive Answers : Instr → State → State → Prop
  | refused (i : Instr) (s : State) (e : ErrCode) (he : e ≠ .ok) : Answers i s (refuse e s)
  | create (cap : DWord) (s : State) (hc : s.cfg = false)
      (hw : widthFor cap ≤ s.config.ibitsMax) :
      Answers (.create cap) s
        (respond true (capacityOf (widthFor cap)) (newTable (widthFor cap) s.randIn s))
  | destroy (s : State) (hc : s.cfg = true) :
      Answers (.destroy 0) s (respond false 0 (voidTable { s with cfg := false }))
  | flush (s : State) (hc : s.cfg = true) (hs : s.ibits ≤ s.config.ibitsMax) :
      Answers (.flush 0) s (respond false 0
        { s with mem := clearBuckets s.mem (tableBuckets s.ibits), epoch := 1, inscnt := 0 })
  | rdreg (rn : BitVec 8) (s : State) (hn : rn.toNat ≤ 10) (ht : rn.toNat < 2 ∨ s.cfg = true) :
      Answers (.rdreg 0 rn) s (respond false (readReg s rn.toNat) s)
  | rdw (idx : BitVec 32) (wn : BitVec 4) (s : State) (hc : s.cfg = true)
      (hs : s.ibits ≤ s.config.ibitsMax) (hr : idx.toNat < tableBuckets s.ibits) :
      Answers (.rdw idx 0 wn) s
        (respond false ((memRead s.mem (wordAddr idx.toNat wn.toNat)).setWidth 64) s)
  | deriv1 (h : DWord) (s : State) (hc : s.cfg = true) :
      Answers (.deriv1 h) s (respond false
        ((derive s.config s.ibits h).index1 ++ digestWord (derive s.config s.ibits h).digest1) s)
  | deriv2 (h : DWord) (s : State) (hc : s.cfg = true) :
      Answers (.deriv2 h) s (respond false
        ((derive s.config s.ibits h).index2 ++ digestWord (derive s.config s.ibits h).digest2) s)
  | blkup (idx : BitVec 32) (d : Digest) (s : State) (hc : s.cfg = true)
      (hs : s.ibits ≤ s.config.ibitsMax) (hr : idx.toNat < tableBuckets s.ibits) (hd : d ≠ 0) :
      Answers (.blkup idx d 0) s
        (respond (lookup s.mem idx.toNat d).1 0 (setMem s (lookup s.mem idx.toNat d).2))
  | blkupc (idx : BitVec 32) (d : Digest) (s : State) (hc : s.cfg = true)
      (hs : s.ibits ≤ s.config.ibitsMax) (hr : idx.toNat < tableBuckets s.ibits) (hd : d ≠ 0) :
      Answers (.blkupc idx d 0) s
        (respond (lookup s.mem idx.toNat d).1
          (BitVec.ofNat 64 (emptyCount (slotsOf s.mem idx.toNat)))
          (setMem s (lookup s.mem idx.toNat d).2))
  | checkFirst (h : DWord) (s : State) (hc : s.cfg = true) (hs : s.ibits ≤ s.config.ibitsMax)
      (h1 : (derive s.config s.ibits h).digest1 ∈
        slotsOf s.mem (derive s.config s.ibits h).index1.toNat) :
      Answers (.check h) s (respond true 0 (setMem s
        (lookup s.mem (derive s.config s.ibits h).index1.toNat
          (derive s.config s.ibits h).digest1).2))
  | checkSecond (h : DWord) (s : State) (hc : s.cfg = true) (hs : s.ibits ≤ s.config.ibitsMax)
      (h1 : (derive s.config s.ibits h).digest1 ∉
        slotsOf s.mem (derive s.config s.ibits h).index1.toNat) :
      Answers (.check h) s (respond
        (lookup s.mem (derive s.config s.ibits h).index2.toNat
          (derive s.config s.ibits h).digest2).1 0 (setMem s
        (lookup s.mem (derive s.config s.ibits h).index2.toNat
          (derive s.config s.ibits h).digest2).2))
  | setFirst (h : DWord) (s : State) (hc : s.cfg = true) (hs : s.ibits ≤ s.config.ibitsMax)
      (h1 : (derive s.config s.ibits h).digest1 ∈
        slotsOf s.mem (derive s.config s.ibits h).index1.toNat) :
      Answers (.set h) s (respond true 0 (setMem s
        (lookup s.mem (derive s.config s.ibits h).index1.toNat
          (derive s.config s.ibits h).digest1).2))
  | setSecond (h : DWord) (s : State) (hc : s.cfg = true) (hs : s.ibits ≤ s.config.ibitsMax)
      (h1 : (derive s.config s.ibits h).digest1 ∉
        slotsOf s.mem (derive s.config s.ibits h).index1.toNat)
      (h2 : (derive s.config s.ibits h).digest2 ∈
        slotsOf s.mem (derive s.config s.ibits h).index2.toNat) :
      Answers (.set h) s (respond true 0 (setMem s
        (lookup s.mem (derive s.config s.ibits h).index2.toNat
          (derive s.config s.ibits h).digest2).2))
  | setInsert (h : DWord) (s : State) (dst : Destination) (hc : s.cfg = true)
      (hs : s.ibits ≤ s.config.ibitsMax)
      (h1 : (derive s.config s.ibits h).digest1 ∉
        slotsOf s.mem (derive s.config s.ibits h).index1.toNat)
      (h2 : (derive s.config s.ibits h).digest2 ∉
        slotsOf s.mem (derive s.config s.ibits h).index2.toNat)
      (hd : dst = arbitrate (derive s.config s.ibits h)
        (emptyCount (slotsOf s.mem (derive s.config s.ibits h).index1.toNat))
        (emptyCount (slotsOf s.mem (derive s.config s.ibits h).index2.toNat)) s.epoch
        (stampOf s.mem (derive s.config s.ibits h).index1.toNat)
        (stampOf s.mem (derive s.config s.ibits h).index2.toNat)) :
      Answers (.set h) s
        (respond false 0 (advanceAging (placeDigest dst (countDrop dst.drop s))))
  | deleteFirst (h : DWord) (s : State) (k : Nat) (hc : s.cfg = true)
      (hs : s.ibits ≤ s.config.ibitsMax)
      (h1 : findSlot (slotsOf s.mem (derive s.config s.ibits h).index1.toNat)
        (derive s.config s.ibits h).digest1 = some k) :
      Answers (.delete h) s (respond true 0 (setMem s
        (compact s.mem (derive s.config s.ibits h).index1.toNat k)))
  | deleteSecond (h : DWord) (s : State) (k : Nat) (hc : s.cfg = true)
      (hs : s.ibits ≤ s.config.ibitsMax)
      (h1 : (derive s.config s.ibits h).digest1 ∉
        slotsOf s.mem (derive s.config s.ibits h).index1.toNat)
      (h2 : findSlot (slotsOf s.mem (derive s.config s.ibits h).index2.toNat)
        (derive s.config s.ibits h).digest2 = some k) :
      Answers (.delete h) s (respond true 0 (setMem s
        (compact s.mem (derive s.config s.ibits h).index2.toNat k)))
  | deleteMiss (h : DWord) (s : State) (hc : s.cfg = true) (hs : s.ibits ≤ s.config.ibitsMax)
      (h1 : (derive s.config s.ibits h).digest1 ∉
        slotsOf s.mem (derive s.config s.ibits h).index1.toNat)
      (h2 : (derive s.config s.ibits h).digest2 ∉
        slotsOf s.mem (derive s.config s.ibits h).index2.toNat) :
      Answers (.delete h) s (respond false 0 s)

/-- A command that answers a next state answers one of these. -/
theorem exec_answers (i : Instr) (s t : State) (h : exec i s = .next t) : Answers i s t := by
  cases i <;> simp only [exec] at h
  case create cap =>
    unfold execCreate at h
    split at h
    · injection h with h; subst h; exact .refused _ _ _ (by simp)
    · rename_i hc
      simp only at h
      split at h
      · injection h with h; subst h; exact .refused _ _ _ (by simp)
      · injection h with h; subst h; exact .create _ _ (by simpa using hc) (by omega)
  case destroy a =>
    rcases requireOperand_eq_next h with ⟨hf, h⟩ | ⟨hf, rfl⟩
    · rw [formatZOk_iff] at hf; subst hf
      rcases requireTable_eq_next h with ⟨hc, h⟩ | ⟨hc, rfl⟩
      · injection h with h; subst h; exact .destroy _ hc
      · exact .refused _ _ _ (by simp)
    · exact .refused _ _ _ (by simp)
  case flush a =>
    rcases requireOperand_eq_next h with ⟨hf, h⟩ | ⟨hf, rfl⟩
    · rw [formatZOk_iff] at hf; subst hf
      rcases requireTable_eq_next h with ⟨hc, h⟩ | ⟨hc, rfl⟩
      · obtain ⟨hs, h⟩ := requireStore_eq_next h
        injection h with h; subst h; exact .flush _ hc hs
      · exact .refused _ _ _ (by simp)
    · exact .refused _ _ _ (by simp)
  case rdreg rsv rn =>
    rcases requireOperand_eq_next h with ⟨hf, g⟩ | ⟨hf, rfl⟩
    · rw [formatROk_iff] at hf; obtain ⟨rfl, hn⟩ := hf
      split at g
      · injection g with g; subst g; exact .rdreg _ _ hn (.inl (by assumption))
      · rcases requireTable_eq_next g with ⟨hc, g⟩ | ⟨hc, rfl⟩
        · injection g with g; subst g; exact .rdreg _ _ hn (.inr hc)
        · exact .refused _ _ _ (by simp)
    · exact .refused _ _ _ (by simp)
  case check x =>
    rcases requireTable_eq_next h with ⟨hc, h'⟩ | ⟨hc, rfl⟩
    · obtain ⟨hs, -⟩ := requireStore_eq_next h'
      have e := execCheck_of_ready x hc hs
      have this := h
      rw [e] at this
      split at this
      · rename_i hf; injection this with this; subst this
        exact .checkFirst _ _ hc hs ((lookup_found_iff _ _ _).1 hf)
      · rename_i hf; injection this with this; subst this
        exact .checkSecond _ _ hc hs (fun e => hf ((lookup_found_iff _ _ _).2 e))
    · exact .refused _ _ _ (by simp)
  case set x =>
    rcases requireTable_eq_next h with ⟨hc, h'⟩ | ⟨hc, rfl⟩
    · obtain ⟨hs, -⟩ := requireStore_eq_next h'
      by_cases h1 : (derive s.config s.ibits x).digest1 ∈
          slotsOf s.mem (derive s.config s.ibits x).index1.toNat
      · rw [execSet_of_mem1 x hc hs h1] at h; injection h with h; subst h
        exact .setFirst _ _ hc hs h1
      · by_cases h2 : (derive s.config s.ibits x).digest2 ∈
            slotsOf s.mem (derive s.config s.ibits x).index2.toNat
        · rw [execSet_of_mem2 x hc hs h1 h2] at h; injection h with h; subst h
          exact .setSecond _ _ hc hs h1 h2
        · obtain ⟨dst, hd, he⟩ := execSet_of_not_mem x hc hs h1 h2
          rw [he] at h; injection h with h; subst h; exact .setInsert _ _ dst hc hs h1 h2 hd
    · exact .refused _ _ _ (by simp)
  case delete x =>
    rcases requireTable_eq_next h with ⟨hc, h'⟩ | ⟨hc, rfl⟩
    · obtain ⟨hs, -⟩ := requireStore_eq_next h'
      rcases execDelete_cases x hc hs with ⟨k, hf, he⟩ | ⟨h1, k, hf, he⟩ | ⟨h1, h2, he⟩ <;>
        rw [he] at h <;> injection h with h <;> subst h
      · exact .deleteFirst _ _ k hc hs hf
      · exact .deleteSecond _ _ k hc hs h1 hf
      · exact .deleteMiss _ _ hc hs h1 h2
    · exact .refused _ _ _ (by simp)
  case deriv1 x =>
    rcases requireTable_eq_next h with ⟨hc, h⟩ | ⟨hc, rfl⟩
    · injection h with h; subst h; exact .deriv1 _ _ hc
    · exact .refused _ _ _ (by simp)
  case deriv2 x =>
    rcases requireTable_eq_next h with ⟨hc, h⟩ | ⟨hc, rfl⟩
    · injection h with h; subst h; exact .deriv2 _ _ hc
    · exact .refused _ _ _ (by simp)
  case blkup idx d rsv =>
    rcases requireOperand_eq_next h with ⟨hf, g⟩ | ⟨hf, rfl⟩
    · rw [formatBOk_iff] at hf; obtain ⟨rfl, hd⟩ := hf
      rcases requireTable_eq_next g with ⟨hc, g⟩ | ⟨hc, rfl⟩
      · rcases requireRange_eq_next g with ⟨hr, g⟩ | ⟨hr, rfl⟩
        · obtain ⟨hs, g⟩ := requireStore_eq_next g
          injection g with g; subst g; exact .blkup _ _ _ hc hs hr hd
        · exact .refused _ _ _ (by simp)
      · exact .refused _ _ _ (by simp)
    · exact .refused _ _ _ (by simp)
  case blkupc idx d rsv =>
    rcases requireOperand_eq_next h with ⟨hf, g⟩ | ⟨hf, rfl⟩
    · rw [formatBOk_iff] at hf; obtain ⟨rfl, hd⟩ := hf
      rcases requireTable_eq_next g with ⟨hc, g⟩ | ⟨hc, rfl⟩
      · rcases requireRange_eq_next g with ⟨hr, g⟩ | ⟨hr, rfl⟩
        · obtain ⟨hs, g⟩ := requireStore_eq_next g
          simp only [lookupCountingEmpty_eq] at g
          injection g with g; subst g; exact .blkupc _ _ _ hc hs hr hd
        · exact .refused _ _ _ (by simp)
      · exact .refused _ _ _ (by simp)
    · exact .refused _ _ _ (by simp)
  case rdw idx rsv wn =>
    rcases requireOperand_eq_next h with ⟨hf, g⟩ | ⟨hf, rfl⟩
    · rw [formatMOk_iff] at hf; subst hf
      rcases requireTable_eq_next g with ⟨hc, g⟩ | ⟨hc, rfl⟩
      · rcases requireRange_eq_next g with ⟨hr, g⟩ | ⟨hr, rfl⟩
        · obtain ⟨hs, g⟩ := requireStore_eq_next g
          injection g with g; subst g; exact .rdw _ _ _ hc hs hr
        · exact .refused _ _ _ (by simp)
      · exact .refused _ _ _ (by simp)
    · exact .refused _ _ _ (by simp)

end Sys2Proof.Machine
end

