-- ==== Sys2Proof/Laws/PerInstr.lean ====
section
/-! SUPPORT. Facts about every command as syntax, one lemma per constructor. -/

namespace Sys2Proof.Laws

/-- The word of a command holds its opcode in `OP` and its operand in `ARG` (`30_encoding.md` R70). -/
def EncodedOpcode.Statement (i : Instr) : Prop :=
  opField (encode i) = opcodeOf i ∧ argField (encode i) = operandOf i

theorem encoded_fields (i : Instr) : EncodedOpcode.Statement i :=
  ⟨opField_append (opcodeOf i) (operandOf i), argField_append (opcodeOf i) (operandOf i)⟩

theorem EncodedOpcode.create (cap : DWord) : EncodedOpcode.Statement (.create cap) :=
  encoded_fields _
theorem EncodedOpcode.destroy (arg : DWord) : EncodedOpcode.Statement (.destroy arg) :=
  encoded_fields _
theorem EncodedOpcode.flush (arg : DWord) : EncodedOpcode.Statement (.flush arg) :=
  encoded_fields _
theorem EncodedOpcode.rdreg (rsv : BitVec 56) (rn : BitVec 8) :
    EncodedOpcode.Statement (.rdreg rsv rn) := encoded_fields _
theorem EncodedOpcode.check (h : DWord) : EncodedOpcode.Statement (.check h) := encoded_fields _
theorem EncodedOpcode.set (h : DWord) : EncodedOpcode.Statement (.set h) := encoded_fields _
theorem EncodedOpcode.delete (h : DWord) : EncodedOpcode.Statement (.delete h) := encoded_fields _
theorem EncodedOpcode.deriv1 (h : DWord) : EncodedOpcode.Statement (.deriv1 h) := encoded_fields _
theorem EncodedOpcode.deriv2 (h : DWord) : EncodedOpcode.Statement (.deriv2 h) := encoded_fields _
theorem EncodedOpcode.blkup (idx : BitVec 32) (d : Digest) (rsv : BitVec 8) :
    EncodedOpcode.Statement (.blkup idx d rsv) := encoded_fields _
theorem EncodedOpcode.blkupc (idx : BitVec 32) (d : Digest) (rsv : BitVec 8) :
    EncodedOpcode.Statement (.blkupc idx d rsv) := encoded_fields _
theorem EncodedOpcode.rdw (idx : BitVec 32) (rsv : BitVec 28) (wn : BitVec 4) :
    EncodedOpcode.Statement (.rdw idx rsv wn) := encoded_fields _

end Sys2Proof.Laws
end

