-- ==== Sys2Proof/Tests/Slice0.lean ====
section
/-! SUPPORT. Tests. Expected values come from `95_test_vectors.md` (a vector's id stands in the
docstring) or are written out from `30_encoding.md` R70, R75, R76. The last part gives, for every
statement with hypotheses, a concrete instance that meets them. -/

namespace Sys2Proof.Tests

open Sys2Proof.Machine

-- One theorem at a time: many threads at once need more memory than one check may use.
set_option Elab.async false

/-! ### Small states and how one command is run -/

/-- The first `n` slots of the pattern bucket of `95_test_vectors.md` section 3.1, the rest empty. -/
def pattern (n : Nat) (st : Byte) : LogicalBucket where
  slots := (List.range 21).map fun k =>
    if k < n then BitVec.ofNat 8 (0xA0 + k) ++ BitVec.ofNat 8 (0xB0 + k) ++ BitVec.ofNat 8 (0xC0 + k)
    else 0
  stamp := st

/-- The block after `CREATE 84` with the draw of program P1. -/
def fresh : State := newTable 1 0x5EED5EED5EED5EED State.reset

/-- That block with `n` pattern slots in bucket `b`. -/
def withPattern (b n : Nat) (st : Byte) : State := setMem fresh (encodeBucket [] b (pattern n st))

/-- The state after the next step, if there is one. -/
def nextOf (r : Result) : Option State :=
  match r with
  | .next t => some t
  | _ => none

/-- The state after a command word is issued. -/
def issued (c : CommandWord) (s : State) : Option State := nextOf (step (issueNext c s))

/-- The response to a command word. -/
def answer (c : CommandWord) (s : State) : Option Response := (issued c s).bind State.rsp

/-- Some words of the store after a command word. -/
def wordsAfter (c : CommandWord) (s : State) (l : List Nat) : Option (List Word) :=
  (issued c s).map fun t => l.map (memRead t.mem)

/-! ### Well-formed operands: an ill-formed term for each check -/

theorem test_wf_refuses_format_z : (Instr.flush 1).wf = false ∧ (Instr.destroy 7).wf = false := by
  decide
theorem test_wf_refuses_register_11 : (Instr.rdreg 0 11).wf = false := by decide
theorem test_wf_refuses_format_r_reserved : (Instr.rdreg 1 4).wf = false := by decide
theorem test_wf_refuses_digest_0 : (Instr.blkup 7 0 0).wf = false := by decide
theorem test_wf_refuses_format_b_reserved : (Instr.blkupc 7 1 0xFF).wf = false := by decide
theorem test_wf_refuses_format_m_reserved : (Instr.rdw 0 1 0).wf = false := by decide
theorem test_wf_takes_register_10 : (Instr.rdreg 0 10).wf = true := by decide

/-! ### Decoding: one word per command, written out from R75 and R76 -/

theorem test_decode_create : decode 0x010000000000000054 = .ok (.create 84) := by decide
theorem test_decode_destroy : decode 0x020000000000000007 = .ok (.destroy 7) := by decide
theorem test_decode_flush : decode 0x030000000000000001 = .ok (.flush 1) := by decide
theorem test_decode_rdreg : decode 0x040000000000000104 = .ok (.rdreg 1 4) := by decide
theorem test_decode_check : decode 0x100000006E65766572 = .ok (.check 0x6E65766572) := by decide
theorem test_decode_set : decode 0x110000000000666F6F = .ok (.set 0x666F6F) := by decide
theorem test_decode_delete : decode 0x120000000001000102 = .ok (.delete 0x1000102) := by decide
theorem test_decode_deriv1 : decode 0x200123456789ABCDEF = .ok (.deriv1 0x0123456789ABCDEF) := by
  decide
theorem test_decode_deriv2 : decode 0x21FFFFFFFFFFFFFFFF = .ok (.deriv2 0xFFFFFFFFFFFFFFFF) := by
  decide
theorem test_decode_blkup : decode 0x3000000007A3B3C3FF = .ok (.blkup 7 0xA3B3C3 0xFF) := by decide
theorem test_decode_blkupc : decode 0x310000000212345600 = .ok (.blkupc 2 0x123456 0) := by decide
theorem test_decode_rdw : decode 0x32000000030000001F = .ok (.rdw 3 1 15) := by decide
theorem test_decode_illegal : decode 0x130000000000000000 = .error (.illegalOpcode 0x13) := by decide
theorem test_decodeTableWord : decodeTableWord 72 0x310000000212345600 = some (.blkupc 2 0x123456 0) :=
  by decide

/-! ### One step of each command -/

/-- S4. -/
theorem test_create : answer 0x010000000000000055 State.reset = some ⟨.ok, true, 168⟩ := by
  decide +kernel
/-- X16: `E_EXISTS` before `E_ALLOC`. -/
theorem test_create_exists : answer 0x01FFFFFFFFFFFFFFFF fresh = some ⟨.exist, false, 0⟩ := by
  decide +kernel
/-- P3 44. -/
theorem test_destroy : (issued 0x020000000000000000 fresh).map State.cfg = some false := by
  decide +kernel
/-- P3 36. -/
theorem test_destroy_operand : answer 0x020000000000000007 fresh = some ⟨.operand, false, 0⟩ := by
  decide +kernel
/-- P3 37: all words zero, stamps included. -/
theorem test_flush : (issued 0x030000000000000000 (withPattern 3 21 0x5A)).map State.mem = some [] := by
  decide +kernel
/-- X24 and P3 10: `STATUS` after `E_EXISTS` on a configured block. -/
theorem test_rdreg_status :
    ((issued 0x010000000000000055 fresh).bind (answer 0x040000000000000000)) =
      some ⟨.ok, false, 0x43⟩ := by decide +kernel
/-- X9: a table register without a table. -/
theorem test_rdreg_noTable : answer 0x040000000000000002 State.reset = some ⟨.noTable, false, 0⟩ := by
  decide +kernel
/-- P5 15: the hit is in bucket 0 and bucket 2 is not examined. -/
theorem test_check :
    (wordsAfter 0x100000000000000102
      (setMem fresh (memWrite (memWrite (memWrite (memWrite [] 0 0xC6911500) 1 0x110D2A00)
        32 0x6794C700) 33 0x95259E00)) [0, 1, 32, 33]) =
      some [0x110D2A00, 0xC6911500, 0x6794C700, 0x95259E00] := by decide +kernel
/-- P1 9. -/
theorem test_check_miss : answer 0x100000006E65766572 fresh = some ⟨.ok, false, 0⟩ := by decide +kernel
/-- P1 2: a tie with room goes to the first bucket, with the stamp of the epoch. -/
theorem test_set : wordsAfter 0x110000000000666F6F fresh [0, 15, 48] = some [0x76E81B00, 1, 0] := by
  decide +kernel
/-- P1 4: more room in the second bucket, so the second digest goes there. -/
theorem test_set_second :
    wordsAfter 0x110000000062617266 (withPattern 0 1 1) [32, 47] = some [0x8DEF7A00, 1] := by
  decide +kernel
/-- P5 17: one occurrence, from the first bucket. -/
theorem test_delete :
    (wordsAfter 0x120000000000000102
      (setMem fresh (memWrite (memWrite (memWrite [] 0 0x110D2A00) 1 0xC6911500) 33 0x95259E00))
      [0, 1, 33]) = some [0xC6911500, 0, 0x95259E00] := by decide +kernel
/-- P5 22. -/
theorem test_delete_miss : answer 0x120000000000000102 fresh = some ⟨.ok, false, 0⟩ := by decide +kernel
/-- H2. -/
theorem test_deriv1 : answer 0x200000000000000001 fresh = some ⟨.ok, false, 0x000000014A7C1500⟩ := by
  decide +kernel
/-- H7: both digests are the sentinel. -/
theorem test_deriv2 : answer 0x21F6D6DDDDAB000000 fresh = some ⟨.ok, false, 0x0000000200000100⟩ := by
  decide +kernel
/-- L5: a hit at extended slot 2. -/
theorem test_blkup :
    wordsAfter 0x3000000000B2C2D200 (withPattern 0 21 0x5A) [0, 1, 2, 3, 5, 6, 9, 15] =
      some [0xB2C2D2AF, 0xA0B0C0BF, 0xA1B1C1CF, 0xA2B2C2B0, 0xA4B4C4D0, 0xA5B5C5B1, 0xA8B8C8B3,
        0xAEBECE5A] := by decide +kernel
/-- X18. -/
theorem test_blkup_range : answer 0x300000000400000100 fresh = some ⟨.range, false, 0⟩ := by
  decide +kernel
/-- L13: a hit with a count. -/
theorem test_blkupc : answer 0x3100000002B0C0D000 (withPattern 2 17 0x5A) = some ⟨.ok, true, 4⟩ := by
  decide +kernel
/-- Section 3.4. -/
theorem test_rdw : answer 0x320000000000000003 (withPattern 0 21 0x5A) =
    some ⟨.ok, false, 0xA3B3C3B1⟩ := by decide +kernel
/-- X21: the operand check comes before the range check. -/
theorem test_rdw_operand : answer 0x320000000400000010 fresh = some ⟨.operand, false, 0⟩ := by
  decide +kernel
/-- X12. -/
theorem test_illegal : answer 0xFF0000000000001234 fresh = some ⟨.illop, false, 0⟩ := by
  decide +kernel
/-- A8: an age tie with `d1[0] = 1`. -/
theorem test_arbiter_tie : arbitrate ⟨0, 3, 2, 9⟩ 0 0 8 7 7 = ⟨2, 9, true⟩ := by decide
/-- A13: a stamp ahead of `EPOCH` is age 255. -/
theorem test_arbiter_ahead : arbitrate ⟨0, 2, 2, 9⟩ 0 0 5 5 6 = ⟨2, 9, true⟩ := by decide
/-- K1. -/
theorem test_compact : memRead (compact (encodeBucket [] 0 (pattern 21 0x5A)) 0 0) 15 = 0xB0C0D05A := by
  decide +kernel

/-! ### Witnesses: concrete instances that meet the hypotheses of the statements

One theorem per statement, named after it; where a statement has several clauses, one part per clause. -/

theorem pattern_length (n : Nat) (st : Byte) : (pattern n st).slots.length = 21 := by simp [pattern]

/-- Both bucket invariants of R42, checked on 21 slots. -/
def bucketOk (l : List Digest) : Bool :=
  (List.range 21).all fun j => (List.range j).all fun i =>
    (l.getD i 0 != 0 || l.getD j 0 == 0) && (l.getD i 0 == 0 || l.getD i 0 != l.getD j 0)

theorem of_bucketOk {l : List Digest} (h : bucketOk l = true) : OccupiedPrefix l ∧ NoDuplicate l := by
  simp only [bucketOk, List.all_eq_true, List.mem_range, Bool.and_eq_true, Bool.or_eq_true,
    bne_iff_ne, beq_iff_eq] at h
  exact ⟨fun i j hij hj h0 => (h j hj i hij).1.resolve_left fun hn => hn h0,
    fun i j hij hj hn => (h j hj i hij).2.resolve_left hn⟩

/-- Buckets 0 and 2 full, with the stamps given; the candidates of `h = 2` are 0 and 2 (P2). -/
def fullMem (st0 st2 : Byte) : Memory :=
  encodeBucket (encodeBucket [] 0 (pattern 21 st0)) 2 (pattern 21 st2)

/-- A block of 84 slots with the store and epoch given. -/
def table (m : Memory) (epoch : Byte) : State := { fresh with mem := m, epoch := epoch }

theorem reference_legal : Config.reference.Legal := by decide

theorem table_ready {m : Memory} (epoch : Byte) (h : Memory.wf m = true) :
    TableReady (table m epoch) :=
  ⟨rfl, reference_legal, (by decide : 1 ≤ 1), (by decide : 1 ≤ 8), h⟩

theorem fullMem_wf (st0 st2 : Byte) : Memory.wf (fullMem st0 st2) = true :=
  encodeBucket_wf _ _ (encodeBucket_wf _ _ rfl)

theorem bucketOk_nil (b : Nat) : bucketOk (slotsOf [] b) = true := by
  have hz : ∀ a, memRead [] a = 0 := fun a => by simp [memRead, readByte, fillByte]
  have hd : directSlot [] b = fun _ => 0 := by funext i; simp [directSlot, hz]
  have he : extendedSlot [] b = fun _ => 0 := by funext i; simp [extendedSlot, lowByte, hz]
  have : slotsOf [] b = List.replicate 21 0 := by rw [slotsOf, decodeBucket, hd, he]; rfl
  rw [this]
  decide +kernel

/-- A block of 84 slots keeps the invariant when its four buckets do. -/
theorem table_inv {m : Memory} (epoch : Byte) (h : Memory.wf m = true) (hb : m.Below (storeBytes Config.reference))
    (hs : ∀ b, bucketOk (slotsOf m b) = true) : StateInv (table m epoch) :=
  ⟨reference_legal, h, hb, ⟨fun _ => rfl, fun _ => rfl⟩, fun r hr => (by cases hr),
    fun _ => ⟨(by decide : 1 ≤ 1), (by decide : 1 ≤ 8), rfl,
      (by decide +kernel : fresh.inscnt.toNat ≤ fresh.thresh.toNat), fun b _ => (of_bucketOk (hs b)).1,
      fun b _ => (of_bucketOk (hs b)).2⟩⟩

theorem empty_inv (epoch : Byte) : StateInv (table [] epoch) :=
  table_inv epoch rfl (fun d hd => by cases hd) bucketOk_nil

theorem fullMem_slots (st0 st2 : Byte) (b : Nat) :
    slotsOf (fullMem st0 st2) b =
      if b = 0 ∨ b = 2 then (pattern 21 0).slots else slotsOf [] b := by
  unfold slotsOf fullMem
  have hw := encodeBucket_wf (m := []) 0 (pattern 21 st0) rfl
  by_cases h2 : b = 2
  · subst h2
    rw [decodeBucket_encodeBucket 2 hw (pattern_length 21 st2)]
    rfl
  · rw [decodeBucket_encodeBucket_other _ hw h2]
    by_cases h0 : b = 0
    · subst h0
      rw [decodeBucket_encodeBucket 0 rfl (pattern_length 21 st0)]
      rfl
    · rw [decodeBucket_encodeBucket_other _ rfl h0, if_neg (by omega)]

theorem full_inv (epoch st0 st2 : Byte) : StateInv (table (fullMem st0 st2) epoch) := by
  refine table_inv epoch (fullMem_wf _ _) ?_ fun b => ?_
  · exact encodeBucket_below _ (encodeBucket_below _ (fun d hd => by cases hd) (by decide +kernel))
      (by decide +kernel)
  · rw [fullMem_slots]
    split
    · decide +kernel
    · exact bucketOk_nil b

theorem exists_next {r : Result} (h : (nextOf r).isSome = true) : ∃ t, r = .next t := by
  cases r with
  | next t => exact ⟨t, rfl⟩
  | fault _ => cases h
  | refused _ => cases h

/-- The candidates of `h = 2` on 84 slots (H3). -/
theorem derive_two : derive Config.reference 1 2 = ⟨0, 0x94F82A, 2, 0xA9D69E⟩ := by decide +kernel

/-- `h = 2` with its digest in the first candidate bucket, in the second, and in neither. -/
def memFirst : Memory := memWrite [] 0 0x94F82A00
def memSecond : Memory := memWrite [] 32 0xA9D69E00

theorem memFirst_wf : Memory.wf memFirst = true := memWrite_wf _ _ rfl
theorem memSecond_wf : Memory.wf memSecond = true := memWrite_wf _ _ rfl

theorem witness_EncodingAndDecodingAgree :
    decode 0x3000000007A3B3C3FF = .ok (.blkup 7 0xA3B3C3 0xFF) := by decide

/-- A word of each operand check, well-formed and not, at the boundaries. -/
theorem witness_OperandChecksReadTheirBits :
    (∃ i, decode 0x020000000000000000 = .ok i ∧ i.wf = true) ∧
    (∃ i, decode 0x030000000000000001 = .ok i ∧ i.wf = false) ∧
    (∃ i, decode 0x04000000000000000A = .ok i ∧ i.wf = true) ∧
    (∃ i, decode 0x04000000000000000B = .ok i ∧ i.wf = false) ∧
    (∃ i, decode 0x040000000000000100 = .ok i ∧ i.wf = false) ∧
    (∃ i, decode 0x300000000700000100 = .ok i ∧ i.wf = true) ∧
    (∃ i, decode 0x310000000700000001 = .ok i ∧ i.wf = false) ∧
    (∃ i, decode 0x32000000070000000F = .ok i ∧ i.wf = true) ∧
    (∃ i, decode 0x320000000700000010 = .ok i ∧ i.wf = false) ∧
    (∃ i, decode 0x12FFFFFFFFFFFFFFFF = .ok i ∧ i.wf = true) :=
  ⟨⟨_, rfl, by decide⟩, ⟨_, rfl, by decide⟩, ⟨_, rfl, by decide⟩, ⟨_, rfl, by decide⟩,
    ⟨_, rfl, by decide⟩, ⟨_, rfl, by decide⟩, ⟨_, rfl, by decide⟩, ⟨_, rfl, by decide⟩,
    ⟨_, rfl, by decide⟩, ⟨_, rfl, by decide⟩⟩

theorem witness_StepRunsTheDecodedCommand :
    (issueNext 0x110000000000666F6F fresh).inputs = .issue 0x110000000000666F6F :: [] ∧
      decode 0x110000000000666F6F = .ok (.set 0x666F6F) := by decide

theorem witness_StepRefusesIllegalOpcodes :
    (issueNext 0xFF0000000000001234 fresh).inputs = .issue 0xFF0000000000001234 :: [] ∧
      opField 0xFF0000000000001234 ∉
        [0x01#8, 0x02, 0x03, 0x04, 0x10, 0x11, 0x12, 0x20, 0x21, 0x30, 0x31, 0x32] := by decide

/-- One list for each of the five actions. -/
theorem witness_HostActionsDoWhatTheTableSays :
    fresh.inputs = [] ∧ ({ fresh with inputs := [.wait] } : State).inputs = .wait :: [] ∧
      ({ fresh with inputs := [.drive 5] } : State).inputs = .drive 5 :: [] ∧
      ({ fresh with inputs := [.take] } : State).inputs = .take :: [] ∧
      ({ fresh with inputs := [.rst] } : State).inputs = .rst :: [] := ⟨rfl, rfl, rfl, rfl, rfl⟩

/-- A command that passes every check, and one that fails each of the five. -/
theorem witness_FirstFailingCheckDecidesTheOutcome :
    fresh.config.Legal ∧ (fresh.cfg = true → fresh.ibits ≤ fresh.config.ibitsMax) ∧
      firstFailingCheck (.check 5) fresh = .ok ∧
      firstFailingCheck (.blkup 4 0 0) fresh = .operand ∧
      firstFailingCheck (.check 5) State.reset = .noTable ∧
      firstFailingCheck (.blkup 3 1 0) fresh = .ok ∧
      firstFailingCheck (.blkup 4 1 0) fresh = .range ∧
      firstFailingCheck (.create 84) fresh = .exist ∧
      firstFailingCheck (.create 10752) State.reset = .ok ∧
      firstFailingCheck (.create 10753) State.reset = .alloc := by decide +kernel

/-- Each row of the matrix, register numbers at the edges of its three clauses. -/
theorem witness_RefusalCodesAreThoseOfTheMatrix :
    ∀ i ∈ [Instr.create 84, .destroy 0, .flush 0, .rdreg 0 1, .rdreg 0 2, .rdreg 0 10, .rdreg 0 11,
        .check 2, .set 2, .delete 2, .deriv1 2, .deriv2 2, .blkup 3 1 0, .blkupc 4 1 0, .rdw 3 0 15],
      ∃ t, exec i fresh = .next t := by
  intro i hi
  have key : (List.all [Instr.create 84, .destroy 0, .flush 0, .rdreg 0 1, .rdreg 0 2, .rdreg 0 10,
      .rdreg 0 11, .check 2, .set 2, .delete 2, .deriv1 2, .deriv2 2, .blkup 3 1 0, .blkupc 4 1 0,
      .rdw 3 0 15] fun i => (nextOf (exec i fresh)).isSome) = true := by decide +kernel
  exact exists_next (List.all_eq_true.1 key i hi)

/-- Both directions, with the largest capacity that fits and the least that does not. -/
theorem witness_OnlyCreateAndDestroyMoveCfg :
    State.reset.config.Legal ∧ State.reset.cfg = false ∧ fresh.cfg = true ∧
      (∃ t, exec (.create 10752) State.reset = .next t) ∧
      (∃ t, exec (.create 10753) State.reset = .next t) ∧ (∃ t, exec (.destroy 0) fresh = .next t) ∧
      (∃ t, exec (.destroy 1) fresh = .next t) :=
  ⟨reference_legal, rfl, rfl, exists_next (by decide +kernel), exists_next (by decide +kernel),
    exists_next (by decide +kernel), exists_next (by decide +kernel)⟩

theorem issueNext_inv {s : State} (c : CommandWord) (h : StateInv s) : StateInv (issueNext c s) :=
  ⟨h.legal, h.mem_wf, h.mem_below, h.errs_iff, h.rsp_ok, fun hc =>
    ⟨(h.table hc).ibits_pos, (h.table hc).ibits_le, (h.table hc).thresh_eq, (h.table hc).inscnt_le,
      (h.table hc).prefix_ok, (h.table hc).nodup_ok⟩⟩

/-- An inserting `SET` on a table with two full buckets. -/
theorem witness_EveryStepKeepsTheInvariant :
    StateInv (issueNext 0x110000000000000002 (table (fullMem 7 7) 8)) ∧
      ∃ t, step (issueNext 0x110000000000000002 (table (fullMem 7 7) 8)) = .next t :=
  ⟨issueNext_inv _ (full_inv 8 7 7), exists_next (by decide +kernel)⟩

theorem witness_NoStepStopsTheBlock : StateInv (table (fullMem 7 7) 8) := full_inv 8 7 7

/-- With a table, a byte just outside it may differ; without one, a register may. -/
theorem witness_ArbitraryStateIsNeverObserved :
    (fresh.config.Legal ∧ (fresh.cfg = true → fresh.ibits ≤ fresh.config.ibitsMax) ∧
      Memory.wf fresh.mem = true ∧ Memory.wf (table [(256, 1)] 1).mem = true ∧
      SameVisible fresh (table [(256, 1)] 1) ∧ fresh ≠ table [(256, 1)] 1) ∧
    (SameVisible State.reset { State.reset with drops := 9 } ∧
      State.reset ≠ { State.reset with drops := 9 }) := by
  refine ⟨⟨reference_legal, by decide, rfl, by decide, ⟨rfl, rfl, rfl, rfl, rfl, rfl, rfl, fun _ => rfl,
    fun _ => rfl, fun _ => rfl, fun _ => rfl, fun _ => rfl, fun _ => rfl, fun _ a ha => ?_⟩,
    by decide⟩, ⟨rfl, rfl, rfl, rfl, rfl, rfl, rfl, fun _ => rfl, fun _ => rfl, fun _ => rfl,
    fun _ => rfl, fun _ => rfl, fun h => (by cases h), fun h => (by cases h)⟩, by decide⟩
  have ha' : a < 64 := ha
  show memRead [] a = memRead [(256, 1)] a
  simp only [memRead, readByte]
  iterate 4 rw [if_neg (by omega)]

theorem witness_OnlyReadingSeedDependsOnTheDraw :
    Instr.rdreg 0 7 ≠ .rdreg 0 6 ∧ ∃ t, exec (.rdreg 0 7) fresh = .next t :=
  ⟨by decide, exists_next (by decide +kernel)⟩

/-- A command of each kind the clauses tell apart. -/
theorem witness_CommandsWriteOnlyWhatTheTableLists :
    (∃ t, exec (.set 2) fresh = .next t) ∧ (∃ t, exec (.flush 0) fresh = .next t) ∧
      (∃ t, exec (.check 2) fresh = .next t) ∧ (∃ t, exec (.rdw 3 0 15) fresh = .next t) :=
  ⟨exists_next (by decide +kernel), exists_next (by decide +kernel), exists_next (by decide +kernel),
    exists_next (by decide +kernel)⟩

/-- The words that the pattern encodes to are encoded by it. -/
theorem witness_CodecIsABijection :
    (pattern 21 0x5A).slots.length = 21 ∧
      ∀ i < 16, bucketWord (pattern 21 0x5A) i = (fun i => bucketWord (pattern 21 0x5A) i) i :=
  ⟨pattern_length _ _, fun _ _ => rfl⟩

theorem witness_SweepIsTheLoopOfWordWrites : Memory.wf (fullMem 7 7) = true := fullMem_wf 7 7

/-- At the first and the last slot of the direct region. -/
theorem witness_PromotionInTheDirectRegionByWords :
    Memory.wf (fullMem 7 7) = true ∧ 0 ≤ 15 ∧ 15 ≤ 15 ∧ 15 < 16 := ⟨fullMem_wf 7 7, by decide⟩

/-- At the first and the last slot of the extended region. -/
theorem witness_PromotionInTheExtendedRegionByWords :
    Memory.wf (fullMem 7 7) = true ∧ 0 ≤ 4 ∧ 4 ≤ 4 ∧ 15 < 16 := ⟨fullMem_wf 7 7, by decide⟩

theorem witness_CompactionByWords :
    Memory.wf (fullMem 7 7) = true ∧ 0 ≤ 20 ∧ 20 ≤ 20 ∧ 15 < 16 := ⟨fullMem_wf 7 7, by decide⟩

/-- The last slot of a full bucket, with both invariants. -/
theorem witness_PromotionPermutesTheSlots :
    Memory.wf (fullMem 7 7) = true ∧ 20 ≤ 20 ∧ NoDuplicate (slotsOf (fullMem 7 7) 0) ∧
      (slotsOf (fullMem 7 7) 0).getD 20 0 ≠ 0 ∧ OccupiedPrefix (slotsOf (fullMem 7 7) 0) := by
  have h := of_bucketOk (l := (pattern 21 0).slots) (by decide +kernel)
  rw [fullMem_slots, if_pos (.inl rfl)]
  exact ⟨fullMem_wf 7 7, le_rfl, h.2, by decide +kernel, h.1⟩

/-- An empty bucket, and a full one. -/
theorem witness_InsertFrontLosesOnlyTheLastOfAFullBucket :
    (Memory.wf (fullMem 7 7) = true ∧ OccupiedPrefix (slotsOf (fullMem 7 7) 1) ∧
      0 < emptyCount (slotsOf (fullMem 7 7) 1)) ∧
    (OccupiedPrefix (slotsOf (fullMem 7 7) 0) ∧ emptyCount (slotsOf (fullMem 7 7) 0) = 0) := by
  refine ⟨⟨fullMem_wf 7 7, ?_, by decide +kernel⟩, ?_, by decide +kernel⟩
  · rw [fullMem_slots, if_neg (by decide)]
    exact (of_bucketOk (bucketOk_nil 1)).1
  · rw [fullMem_slots, if_pos (.inl rfl)]
    exact (of_bucketOk (by decide +kernel)).1

/-- The first and the last slot of a full bucket. -/
theorem witness_CompactionKeepsTheBucketInvariants :
    Memory.wf (fullMem 7 7) = true ∧ 20 ≤ 20 ∧ (slotsOf (fullMem 7 7) 0).getD 20 0 ≠ 0 ∧
      (slotsOf (fullMem 7 7) 0).getD 0 0 ≠ 0 ∧ OccupiedPrefix (slotsOf (fullMem 7 7) 0) ∧
      NoDuplicate (slotsOf (fullMem 7 7) 0) := by
  have h := of_bucketOk (l := (pattern 21 0).slots) (by decide +kernel)
  rw [fullMem_slots, if_pos (.inl rfl)]
  exact ⟨fullMem_wf 7 7, le_rfl, by decide +kernel, by decide +kernel, h⟩

/-- The narrowest and the widest table of the reference parameters, and the widest of any. -/
theorem witness_IndicesLieInOppositeHalves :
    (Config.reference.Legal ∧ 1 ≤ 1 ∧ 1 ≤ Config.reference.ibitsMax) ∧
      8 ≤ Config.reference.ibitsMax ∧ ({ Config.reference with ibitsMax := 31 } : Config).Legal := by
  decide

theorem witness_DigestsAreTheLowBitsAndNeverZero : Config.reference.Legal := reference_legal

/-- X and Y of program P5: equal in their low 24 bits only. -/
theorem witness_DigestsDependOnTheLow24BitsOnly :
    Config.reference.Legal ∧
      (0x102 : DWord).extractLsb' 0 24 = (0x1000102 : DWord).extractLsb' 0 24 ∧
      (hashProduct 0x102 Config.reference.mult1).extractLsb' 0 24 =
        (hashProduct 0x1000102 Config.reference.mult1).extractLsb' 0 24 := by decide +kernel

/-- The last bucket of the first half. -/
theorem witness_EveryFirstCandidateIsReached :
    Config.reference.Legal ∧ 1 ≤ 8 ∧ 8 ≤ Config.reference.ibitsMax ∧ 255 < 2 ^ 8 ∧
      (0x94F82A : Digest) ≠ 0 := by decide

theorem witness_DerivCommandsShowTheCandidates : TableReady (table [] 1) := table_ready 1 rfl

theorem witness_DerivedValueIsABlkupOperand : TableReady (table [] 1) := table_ready 1 rfl

/-- A hit in the first bucket and a miss in the last. -/
theorem witness_BucketLookupsPromoteOnAHit :
    (TableReady (table memFirst 1) ∧ (0x94F82A : Digest) ≠ 0 ∧ (0 : BitVec 32).toNat < 2 * 2 ^ 1 ∧
      (0x94F82A : Digest) ∈ slotsOf memFirst (0 : BitVec 32).toNat) ∧
    ((3 : BitVec 32).toNat < 2 * 2 ^ 1 ∧
      (0x94F82A : Digest) ∉ slotsOf memFirst (3 : BitVec 32).toNat) :=
  ⟨⟨table_ready 1 memFirst_wf, by decide, by decide, by decide +kernel⟩, by decide, by decide +kernel⟩

/-- The last word of the last bucket. -/
theorem witness_RdwReadsOneWord :
    TableReady (table [] 1) ∧ (3 : BitVec 32).toNat < 2 * 2 ^ (table [] 1).ibits :=
  ⟨table_ready 1 rfl, by decide⟩

/-- In the first candidate bucket, in the second only, in neither. -/
theorem witness_CheckAnswersMembership :
    (TableReady (table memFirst 1) ∧ (derive Config.reference 1 2).digest1 ∈ slotsOf memFirst 0) ∧
    (TableReady (table memSecond 1) ∧ (derive Config.reference 1 2).digest1 ∉ slotsOf memSecond 0 ∧
      (derive Config.reference 1 2).digest2 ∈ slotsOf memSecond 2) ∧
    (TableReady (table [] 1) ∧ (derive Config.reference 1 2).digest1 ∉ slotsOf [] 0 ∧
      (derive Config.reference 1 2).digest2 ∉ slotsOf [] 2) := by
  rw [derive_two]
  exact ⟨⟨table_ready 1 memFirst_wf, by decide +kernel⟩, ⟨table_ready 1 memSecond_wf,
    by decide +kernel, by decide +kernel⟩, table_ready 1 rfl, by decide +kernel, by decide +kernel⟩

theorem witness_RepeatedCheckChangesNothing :
    TableReady (table memSecond 1) ∧ ∃ t, exec (.check 2) (table memSecond 1) = .next t :=
  ⟨table_ready 1 memSecond_wf, exists_next (by decide +kernel)⟩

/-- In the first candidate bucket, and in the second only. -/
theorem witness_SetOfAPresentDigestOnlyPromotes :
    (TableReady (table memFirst 1) ∧ (derive Config.reference 1 2).digest1 ∈ slotsOf memFirst 0) ∧
    (TableReady (table memSecond 1) ∧ (derive Config.reference 1 2).digest1 ∉ slotsOf memSecond 0 ∧
      (derive Config.reference 1 2).digest2 ∈ slotsOf memSecond 2) :=
  ⟨witness_CheckAnswersMembership.1, witness_CheckAnswersMembership.2.1⟩

/-- Neither candidate bucket of `h = 2` holds its digest, with both empty, the first fuller, the second
fuller, and both full with the first staler, the second staler, and as stale. -/
theorem witness_SetInsertsWhereTheArbiterSays :
    (∀ epoch st0 st2, TableReady (table (fullMem st0 st2) epoch)) ∧ TableReady (table [] 1) ∧
    TableReady (withPattern 0 1 1) ∧ TableReady (withPattern 2 1 1) ∧
    (∀ m ∈ [[], (withPattern 0 1 1).mem, (withPattern 2 1 1).mem],
      (derive Config.reference 1 2).digest1 ∉ slotsOf m 0 ∧
        (derive Config.reference 1 2).digest2 ∉ slotsOf m 2) ∧
    (∀ st0 st2, (derive Config.reference 1 2).digest1 ∉ slotsOf (fullMem st0 st2) 0 ∧
      (derive Config.reference 1 2).digest2 ∉ slotsOf (fullMem st0 st2) 2 ∧
      (slotsOf (fullMem st0 st2) 0).count 0 = 0 ∧ (slotsOf (fullMem st0 st2) 2).count 0 = 0) ∧
    ([[], (withPattern 0 1 1).mem, (withPattern 2 1 1).mem].map fun m =>
      ((slotsOf m 0).count 0, (slotsOf m 2).count 0)) = [(21, 21), (20, 21), (21, 20)] ∧
    ([fullMem 7 7, fullMem 6 7, fullMem 7 6].map fun m => (stampOf m 0, stampOf m 2)) =
      [(7, 7), (6, 7), (7, 6)] := by
  rw [derive_two]
  refine ⟨fun e x y => table_ready e (fullMem_wf x y), table_ready 1 rfl, ?_, ?_, by decide +kernel,
    fun x y => ?_, by decide +kernel, by decide +kernel⟩
  · exact ⟨rfl, reference_legal, by decide, by decide, encodeBucket_wf _ _ rfl⟩
  · exact ⟨rfl, reference_legal, by decide, by decide, encodeBucket_wf _ _ rfl⟩
  · rw [fullMem_slots, fullMem_slots, if_pos (.inl rfl), if_pos (.inr rfl)]
    decide +kernel

/-- `CHECK` right after a `SET` on two full buckets. -/
theorem witness_CheckAfterSetAlwaysHits :
    TableReady (table (fullMem 7 7) 8) ∧ ∃ t, exec (.set 2) (table (fullMem 7 7) 8) = .next t :=
  ⟨table_ready 8 (fullMem_wf 7 7), exists_next (by decide +kernel)⟩

theorem witness_SecondSetChangesNothing :
    TableReady (table (fullMem 7 7) 8) ∧ ∃ t, exec (.set 2) (table (fullMem 7 7) 8) = .next t :=
  witness_CheckAfterSetAlwaysHits

/-- With room, with both buckets full, and of a digest that is present. -/
theorem witness_DropsCountTheDiscardedDigests :
    (StateInv (table [] 1) ∧ (table [] 1).cfg = true ∧ ∃ t, exec (.set 2) (table [] 1) = .next t) ∧
    (StateInv (table (fullMem 7 7) 8) ∧ ∃ t, exec (.set 2) (table (fullMem 7 7) 8) = .next t) ∧
    (nextOf (exec (.set 2) (table [] 1))).bind (fun t => nextOf (exec (.set 2) t)) ≠ none :=
  ⟨⟨empty_inv 1, rfl, exists_next (by decide +kernel)⟩,
    ⟨full_inv 8 7 7, exists_next (by decide +kernel)⟩, by decide +kernel⟩

/-- A `SET` into a table with room, and a stored digest. -/
theorem witness_NothingIsForgottenWithoutADrop :
    StateInv (table (fullMem 7 7) 8) ∧ (table (fullMem 7 7) 8).cfg = true ∧
      (nextOf (exec (.set 1) (table (fullMem 7 7) 8))).map State.drops =
        some (table (fullMem 7 7) 8).drops ∧
      (0xA0B0C0 : Digest) ≠ 0 ∧ (0xA0B0C0 : Digest) ∈ slotsOf (fullMem 7 7) 0 :=
  ⟨full_inv 8 7 7, rfl, by decide +kernel, by decide, by decide +kernel⟩

theorem witness_AgingFollowsTheInsertionVolume :
    fresh.inscnt = 0 ∧ fresh.epoch = 1 ∧ fresh.thresh.toNat + 1 < 2 ^ 64 := by decide

theorem witness_DeleteRemovesOneDigest :
    (TableReady (table memFirst 1) ∧ (derive Config.reference 1 2).digest1 ∈ slotsOf memFirst 0) ∧
    (TableReady (table memSecond 1) ∧ (derive Config.reference 1 2).digest1 ∉ slotsOf memSecond 0 ∧
      (derive Config.reference 1 2).digest2 ∈ slotsOf memSecond 2) ∧
    (TableReady (table [] 1) ∧ (derive Config.reference 1 2).digest1 ∉ slotsOf [] 0 ∧
      (derive Config.reference 1 2).digest2 ∉ slotsOf [] 2) := witness_CheckAnswersMembership

theorem witness_CheckAfterDelete :
    StateInv (table (fullMem 7 7) 8) ∧ (table (fullMem 7 7) 8).cfg = true ∧
      ∃ t, exec (.delete 2) (table (fullMem 7 7) 8) = .next t :=
  ⟨full_inv 8 7 7, rfl, exists_next (by decide +kernel)⟩

/-- At the widest width that 64 bits can ask for. -/
theorem witness_SizingIsTheLeastWidth :
    1 ≤ 59 ∧ (0xFFFFFFFFFFFFFFFF : DWord).toNat ≤ 42 * 2 ^ 59 := by decide +kernel

/-- The smallest and the largest capacity that fit. -/
theorem witness_CreateMakesAnEmptyTable :
    State.reset.config.Legal ∧ State.reset.cfg = false ∧
      (0 : DWord).toNat ≤ 42 * 2 ^ State.reset.config.ibitsMax ∧
      (10752 : DWord).toNat ≤ 42 * 2 ^ State.reset.config.ibitsMax := by decide

/-- A command that needs a table, with a well-formed operand. -/
theorem witness_DestroyLeavesNothingReadable :
    fresh.cfg = true ∧ (Instr.rdreg 0 2).wf = true ∧ needsTable (.rdreg 0 2) = true := by decide

theorem witness_FlushEmptiesTheTable : TableReady (table (fullMem 7 7) 8) :=
  table_ready 8 (fullMem_wf 7 7)

theorem witness_FlushedTableIsAFreshTable :
    StateInv (table (fullMem 7 7) 8) ∧ (table (fullMem 7 7) 8).cfg = true ∧
      widthFor 84 = (table (fullMem 7 7) 8).ibits ∧
      (∃ t, exec (.flush 0) (table (fullMem 7 7) 8) = .next t) ∧
      ∃ u, exec (.destroy 0) (table (fullMem 7 7) 8) = .next u ∧ ∃ v, exec (.create 84) u = .next v :=
  ⟨full_inv 8 7 7, rfl, by decide, exists_next (by decide +kernel), _, rfl, _, rfl⟩

theorem witness_RdregReadsEveryRegister : fresh.cfg = true := rfl

end Sys2Proof.Tests
end

section
/-! PROOFS. Hash derivation as numbers, and the reachability of every first candidate
(`40_hash_derivation.md` R102 to R107). -/

namespace Sys2Proof.Machine

/-! ### The candidates as numbers -/

/-- `index1` as a number (R102). -/
theorem derive_index1_toNat (c : Config) {ib : Nat} (h : DWord) (hib : ib ≤ 31) :
    (derive c ib h).index1.toNat =
      (hashProduct h c.mult1).toNat / 2 ^ c.indexShift % 2 ^ ib := by
  have hlt : (hashProduct h c.mult1).toNat / 2 ^ c.indexShift % 2 ^ ib < 2 ^ ib :=
    Nat.mod_lt _ (Nat.two_pow_pos ib)
  have hpow : 2 ^ ib ≤ 2 ^ 31 := Nat.pow_le_pow_right (by omega) hib
  simp only [derive, BitVec.toNat_setWidth, indexBits_toNat c _ (show ib ≤ 63 by omega)]
  omega

/-- `index2` as a number: bit `IBITS` is set above the masked bits (R103). -/
theorem derive_index2_toNat (c : Config) {ib : Nat} (h : DWord) (hib : ib ≤ 31) :
    (derive c ib h).index2.toNat =
      2 ^ ib + (hashProduct h c.mult2).toNat / 2 ^ c.indexShift % 2 ^ ib := by
  have hlt : (hashProduct h c.mult2).toNat / 2 ^ c.indexShift % 2 ^ ib < 2 ^ ib :=
    Nat.mod_lt _ (Nat.two_pow_pos ib)
  have hpow : 2 ^ ib ≤ 2 ^ 31 := Nat.pow_le_pow_right (by omega) hib
  have hhalf : (imask ib + 1).toNat = 2 ^ ib := by
    have hpos := Nat.two_pow_pos ib
    rw [BitVec.toNat_add, imask_toNat (by omega), show (1 : DWord).toNat = 1 from rfl]
    omega
  have hor := Nat.two_pow_add_eq_or_of_lt hlt 1
  rw [Nat.mul_one] at hor
  simp only [derive, BitVec.toNat_setWidth, BitVec.toNat_or, hhalf,
    indexBits_toNat c _ (show ib ≤ 63 by omega)]
  rw [Nat.or_comm, ← hor]
  omega

/-- The first candidate is a bucket of the table, in its first half (R102). -/
theorem derive_index1_lt (c : Config) {ib : Nat} (h : DWord) (hib : ib ≤ 31) :
    (derive c ib h).index1.toNat < tableBuckets ib := by
  have : (hashProduct h c.mult1).toNat / 2 ^ c.indexShift % 2 ^ ib < 2 ^ ib :=
    Nat.mod_lt _ (Nat.two_pow_pos ib)
  rw [derive_index1_toNat c h hib, tableBuckets, isize]
  omega

/-- The second candidate is a bucket of the table, in its second half (R103). -/
theorem derive_index2_lt (c : Config) {ib : Nat} (h : DWord) (hib : ib ≤ 31) :
    (derive c ib h).index2.toNat < tableBuckets ib := by
  have : (hashProduct h c.mult2).toNat / 2 ^ c.indexShift % 2 ^ ib < 2 ^ ib :=
    Nat.mod_lt _ (Nat.two_pow_pos ib)
  rw [derive_index2_toNat c h hib, tableBuckets, isize]
  omega

/-- The low 24 bits of a product are the digest, unless they are 0 (R104). -/
theorem digestBits_of_ne_zero (c : Config) {p : DWord} (h : p.extractLsb' 0 24 ≠ 0) :
    digestBits c p = p.extractLsb' 0 24 := if_neg h

/-! ### Multiplication by an odd number -/

/-- An odd hash multiplier has an inverse modulo `2^64` (R12). -/
theorem exists_mul_eq_one_of_odd {m : DWord} (hm : m.toNat % 2 = 1) : ∃ n : DWord, m * n = 1 := by
  have hcop : Nat.Coprime m.toNat (2 ^ 64) := (Nat.odd_iff.2 hm).coprime_two_right.pow_right 64
  obtain ⟨n, -, hn⟩ := Nat.exists_mul_mod_eq_one_of_coprime hcop (by omega)
  refine ⟨BitVec.ofNat 64 n, BitVec.eq_of_toNat_eq ?_⟩
  rw [BitVec.toNat_mul, BitVec.toNat_ofNat, Nat.mul_mod_mod, hn]
  rfl

/-- Multiplication by an odd multiplier is a bijection of the hashes: the multiplier's inverse undoes
it (R12). -/
theorem hashProduct_bijective {m : DWord} (hm : m.toNat % 2 = 1) :
    Function.Bijective (fun h => hashProduct h m) := by
  obtain ⟨n, hn⟩ := exists_mul_eq_one_of_odd hm
  refine Function.bijective_iff_has_inverse.2 ⟨(· * n), fun h => ?_, fun p => ?_⟩
  · show h * m * n = h
    rw [BitVec.mul_assoc, hn, mul_one]
  · show p * n * m = p
    rw [BitVec.mul_assoc, BitVec.mul_comm n m, hn, mul_one]

/-! ### A product with given index bits and digest -/

/-- Index bits `x` above the shift, digest `d` in the low 24 bits, 0 elsewhere. -/
def productOf (shift x : Nat) (d : Digest) : DWord := BitVec.ofNat 64 (x * 2 ^ shift + d.toNat)

section
variable {shift ib x : Nat}

/-- The parts do not overlap and fit 64 bits (R9: `INDEX_SHIFT` is at least 24). -/
theorem productOf_toNat (d : Digest) (hs : 24 ≤ shift) (hfit : shift + ib ≤ 64) (hx : x < 2 ^ ib) :
    (productOf shift x d).toNat = x * 2 ^ shift + d.toNat := by
  have hd : d.toNat < 2 ^ shift :=
    lt_of_lt_of_le d.isLt (Nat.pow_le_pow_right (by omega) hs)
  have hlt : x * 2 ^ shift + d.toNat < 2 ^ 64 := calc
    x * 2 ^ shift + d.toNat < (x + 1) * 2 ^ shift := by rw [Nat.add_mul]; omega
    _ ≤ 2 ^ ib * 2 ^ shift := Nat.mul_le_mul_right _ hx
    _ = 2 ^ (shift + ib) := by rw [Nat.pow_add, Nat.mul_comm]
    _ ≤ 2 ^ 64 := Nat.pow_le_pow_right (by omega) hfit
  rw [productOf, BitVec.toNat_ofNat, Nat.mod_eq_of_lt hlt]

/-- The index bits of the product are `x`. -/
theorem productOf_index (d : Digest) (hs : 24 ≤ shift) (hfit : shift + ib ≤ 64) (hx : x < 2 ^ ib) :
    (productOf shift x d).toNat / 2 ^ shift % 2 ^ ib = x := by
  have hd : d.toNat < 2 ^ shift :=
    lt_of_lt_of_le d.isLt (Nat.pow_le_pow_right (by omega) hs)
  rw [productOf_toNat d hs hfit hx, Nat.mul_comm, Nat.mul_add_div (Nat.two_pow_pos shift),
    Nat.div_eq_of_lt hd, Nat.add_zero, Nat.mod_eq_of_lt hx]

/-- The low 24 bits of the product are `d`. -/
theorem productOf_low (d : Digest) (hs : 24 ≤ shift) (hfit : shift + ib ≤ 64) (hx : x < 2 ^ ib) :
    (productOf shift x d).extractLsb' 0 24 = d := by
  apply BitVec.eq_of_toNat_eq
  have hdvd : 2 ^ 24 ∣ x * 2 ^ shift := Dvd.dvd.mul_left (pow_dvd_pow 2 hs) x
  rw [BitVec.extractLsb'_toNat, Nat.shiftRight_zero, productOf_toNat d hs hfit hx, Nat.add_mod,
    Nat.mod_eq_zero_of_dvd hdvd, Nat.zero_add, Nat.mod_mod, Nat.mod_eq_of_lt d.isLt]

end

/-- Settles O31: the multiplication is onto, so some hash has the product that holds the wanted index
and digest. -/
theorem everyFirstCandidateIsReached : Obligations.EveryFirstCandidateIsReached := by
  intro c ib ⟨hodd, _, _, _, hs, hfit, _, hmax⟩ _ hib
  have hbij := hashProduct_bijective hodd
  refine ⟨hbij, fun x d hx hd => ?_⟩
  have hfit' : c.indexShift + ib ≤ 64 := by omega
  obtain ⟨h, hp⟩ : ∃ h, hashProduct h c.mult1 = productOf c.indexShift x d := hbij.surjective _
  have hlow := productOf_low d hs hfit' hx
  refine ⟨h, ?_, ?_⟩
  · rw [derive_index1_toNat c h (by omega), hp, productOf_index d hs hfit' hx]
  · rw [derive, hp, digestBits_of_ne_zero c (by rwa [hlow]), hlow]

end Sys2Proof.Machine
end

section
/-! PROOFS. The invariant of the machine is kept by every step (`10_state.md` R42 and the ranges of R24
to R33): first by the operations on the slots of a bucket, then by those on the store, then by the
updates of the state, then by the commands and the host's actions. -/

namespace Sys2Proof.Machine

/-! ### The slots of one bucket (R42, items 2 and 3) -/

section
variable {l : List Digest}

/-- A hit promoted to the front leaves no gap (R140). -/
theorem occupiedPrefix_shiftBack (hl : l.length = 21) {k : Nat} (hk : k ≤ 20) {v : Digest}
    (hv : v ≠ 0) (h : OccupiedPrefix l) : OccupiedPrefix (shiftBack l k v) := by
  intro i j hij hj hi
  rw [shiftBack_getD v hl hk] at hi ⊢
  rw [if_neg (by omega)]
  by_cases hi0 : i = 0
  · rw [if_pos hi0] at hi
    exact absurd hi hv
  rw [if_neg hi0] at hi
  by_cases hik : i ≤ k
  · rw [if_pos hik] at hi
    split
    · exact h (i - 1) (j - 1) (by omega) (by omega) hi
    · exact h (i - 1) j (by omega) hj hi
  · rw [if_neg hik] at hi
    rw [if_neg (by omega)]
    exact h i j hij hj hi

/-- A rotation only permutes the slots (R140). -/
theorem noDuplicate_shiftBack_getD (hl : l.length = 21) {k : Nat} (hk : k ≤ 20)
    (h : NoDuplicate l) : NoDuplicate (shiftBack l k (l.getD k 0)) := by
  rw [noDuplicate_iff_count _ (shiftBack_length _ hl hk)]
  intro d hd
  rw [(shiftBack_perm l k (by omega)).count_eq d]
  exact (noDuplicate_iff_count l hl).1 h d hd

/-- A digest that is not in the bucket may go to its front (R143, R162). -/
theorem noDuplicate_insert (hl : l.length = 21) {v : Digest} (hv : v ∉ l) (h : NoDuplicate l) :
    NoDuplicate (shiftBack l 20 v) := by
  rw [noDuplicate_iff_count _ (shiftBack_length v hl le_rfl), shiftBack_twenty l hl v]
  intro d hd
  have hsub : (l.take 20).count d ≤ l.count d := (List.take_sublist 20 l).count_le d
  have hold := (noDuplicate_iff_count l hl).1 h d hd
  by_cases hvd : v = d
  · subst hvd
    rw [List.count_cons_self]
    rw [List.count_eq_zero.2 hv] at hsub
    omega
  · rw [List.count_cons_of_ne hvd]
    omega

/-- The gap that a removal leaves is closed (R185). -/
theorem occupiedPrefix_closeGap (hl : l.length = 21) {k : Nat} (hk : k ≤ 20)
    (h : OccupiedPrefix l) : OccupiedPrefix (closeGap l k) := by
  intro i j hij hj hi
  rw [closeGap_getD hl hk] at hi ⊢
  by_cases hj20 : j < 20
  · by_cases hik : i < k
    · rw [if_pos hik] at hi
      split
      · exact h i j hij hj hi
      · exact h i (j + 1) (by omega) (by omega) hi
    · rw [if_neg hik, if_pos (by omega)] at hi
      rw [if_neg (by omega), if_pos hj20]
      exact h (i + 1) (j + 1) (by omega) (by omega) hi
  · rw [if_neg (by omega), if_neg hj20]

/-- A removal adds no digest (R185). -/
theorem noDuplicate_closeGap (hl : l.length = 21) {k : Nat} (hk : k ≤ 20) (h : NoDuplicate l) :
    NoDuplicate (closeGap l k) := by
  rw [noDuplicate_iff_count _ (closeGap_length hl hk)]
  intro d hd
  have hold := (noDuplicate_iff_count l hl).1 h d hd
  have hcount := closeGap_count l k (by omega) d
  rw [if_neg hd] at hcount
  omega

end

/-! ### The store while a table exists -/

/-- The part of the invariant that speaks of the store of a table of index width `ib`. -/
structure TableStore (c : Config) (ib : Nat) (m : Memory) : Prop where
  wf : Memory.wf m = true
  below : m.Below (storeBytes c)
  prefix_ok : ∀ b < tableBuckets ib, OccupiedPrefix (slotsOf m b)
  nodup_ok : ∀ b < tableBuckets ib, NoDuplicate (slotsOf m b)

/-- A bucket of the table lies in the store (R50, R51). -/
theorem bucket_le_storeBytes {c : Config} {ib b : Nat} (hib : ib ≤ c.ibitsMax)
    (hb : b < tableBuckets ib) : 64 * b + 64 ≤ storeBytes c := by
  have hpow : 2 ^ ib ≤ 2 ^ c.ibitsMax := Nat.pow_le_pow_right (by omega) hib
  rw [tableBuckets, isize] at hb
  rw [storeBytes, Nat.pow_add]
  omega

section
variable {c : Config} {ib : Nat} {m : Memory}

/-- Rewriting one bucket keeps the store's invariant when the bucket's new slots keep it. -/
theorem TableStore.rewrite {m' : Memory} {b : Nat} (h : TableStore c ib m)
    (hwf : Memory.wf m' = true) (hbelow : m'.Below (storeBytes c))
    (hout : OutsideBucketUnchanged m m' b) (hprefix : OccupiedPrefix (slotsOf m' b))
    (hnodup : NoDuplicate (slotsOf m' b)) : TableStore c ib m' where
  wf := hwf
  below := hbelow
  prefix_ok b' hb' := by
    by_cases e : b' = b
    · rwa [e]
    · rw [slotsOf_of_outside hout e]
      exact h.prefix_ok b' hb'
  nodup_ok b' hb' := by
    by_cases e : b' = b
    · rwa [e]
    · rw [slotsOf_of_outside hout e]
      exact h.nodup_ok b' hb'

section
variable {b : Nat} (h : TableStore c ib m) (hib : ib ≤ c.ibitsMax) (hb : b < tableBuckets ib)
include h hib hb

/-- A lookup of a digest keeps the store's invariant (R123). -/
theorem TableStore.lookup {d : Digest} (hd : d ≠ 0) : TableStore c ib (lookup m b d).2 := by
  rcases lookup_cases m b d with ⟨-, he⟩ | ⟨k, hk, -, hkd, -, he⟩ <;> rw [he]
  · exact h
  · have hl := slotsOf_length m b
    refine h.rewrite (promote_wf b k h.wf) (promote_below k h.below (bucket_le_storeBytes hib hb))
      (fun a ha => readByte_promote_outside k ha) ?_ ?_ <;> rw [slotsOf_promote h.wf hk]
    · exact occupiedPrefix_shiftBack hl hk (by rwa [hkd]) (h.prefix_ok b hb)
    · exact noDuplicate_shiftBack_getD hl hk (h.nodup_ok b hb)

/-- Inserting and stamping a digest that the bucket does not hold keeps the store's invariant
(R162). -/
theorem TableStore.insert {d : Digest} (hd : d ≠ 0) (hnew : d ∉ slotsOf m b) (v : Byte) :
    TableStore c ib (setStamp (insertFront m b d) b v) := by
  have hl := slotsOf_length m b
  have hfit := bucket_le_storeBytes hib hb
  have hslots : slotsOf (setStamp (insertFront m b d) b v) b = shiftBack (slotsOf m b) 20 d := by
    rw [slotsOf, insertFront_setStamp_spec b d v h.wf]
  refine h.rewrite (setStamp_wf b v (insertFront_wf b d h.wf))
    (setStamp_below v (insertFront_below d h.below hfit) hfit)
    (insertFront_setStamp_inserted b d v h.wf).outside ?_ ?_ <;> rw [hslots]
  · exact occupiedPrefix_shiftBack hl le_rfl hd (h.prefix_ok b hb)
  · exact noDuplicate_insert hl hnew (h.nodup_ok b hb)

/-- Removing a found slot keeps the store's invariant (R185). -/
theorem TableStore.compact {d : Digest} {k : Nat} (hf : findSlot (slotsOf m b) d = some k) :
    TableStore c ib (compact m b k) := by
  have hl := slotsOf_length m b
  have hk : k ≤ 20 := by
    have := (findSlot_eq_some hf).1
    omega
  refine h.rewrite (compact_wf b k h.wf) (compact_below k h.below (bucket_le_storeBytes hib hb))
    (fun a ha => readByte_compact_outside k ha) ?_ ?_ <;> rw [slotsOf_compact h.wf hk]
  · exact occupiedPrefix_closeGap hl hk (h.prefix_ok b hb)
  · exact noDuplicate_closeGap hl hk (h.nodup_ok b hb)

end

/-- A bucket of the swept region is empty (R195, R204). -/
theorem slotsOf_clearBuckets (m : Memory) {n b : Nat} (hb : b < n) :
    slotsOf (clearBuckets m n) b = List.replicate 21 0 := by
  have hzero : ∀ i < 16, memRead (clearBuckets m n) (wordAddr b i) = 0 := fun i hi => by
    rw [memRead_clearBuckets, if_pos (by unfold wordAddr; omega)]
  refine list_ext_getD (d := 0) (slotsOf_length _ _) List.length_replicate fun i hi => ?_
  rw [List.getD_replicate _ hi]
  by_cases h16 : i < 16
  · rw [slotsOf_direct _ _ h16, directSlot, hzero i h16]
    rfl
  · obtain ⟨j, rfl⟩ := Nat.exists_eq_add_of_le (show 16 ≤ i by omega)
    rw [slotsOf_extended _ _ (by omega), extendedSlot, lowByte, lowByte, lowByte,
      hzero _ (by omega), hzero _ (by omega), hzero _ (by omega)]
    rfl

/-- The sweep of `CREATE` and `FLUSH` makes a store with the invariant (R195, R204). -/
theorem tableStore_clearBuckets (ib : Nat) (hwf : Memory.wf m = true)
    (hbelow : m.Below (storeBytes c)) : TableStore c ib (clearBuckets m (tableBuckets ib)) where
  wf := clearBuckets_wf _ hwf
  below := clearBuckets_below _ hbelow
  prefix_ok b hb := by
    rw [slotsOf_clearBuckets m hb]
    exact fun _ _ _ hj _ => List.getD_replicate _ hj
  nodup_ok b hb := by
    rw [slotsOf_clearBuckets m hb]
    exact fun _ _ hij hj hi => absurd (List.getD_replicate _ (hij.trans hj)) hi

end

/-! ### The updates of the state -/

section
variable {s : State} (h : StateInv s)
include h

/-- The host's side of the state may change, if the response offered stays a proper one. -/
theorem StateInv.hostSide (inputs : List HostAction) (randIn : DWord) {rsp : Option Response}
    (hrsp : ∀ r, rsp = some r → r.err ≠ .ok → r.res = false ∧ r.val = 0) :
    StateInv { s with inputs := inputs, randIn := randIn, rsp := rsp } :=
  { h with rsp_ok := hrsp, table := fun hc => { h.table hc with } }

theorem StateInv.respond (res : Bool) (val : DWord) : StateInv (respond res val s) :=
  h.hostSide s.inputs s.randIn fun r hr hne => by
    obtain rfl := Option.some.inj hr
    exact absurd rfl hne

theorem StateInv.refuse {e : ErrCode} (he : e ≠ .ok) : StateInv (refuse e s) :=
  { h with
    errs_iff := by simp [he]
    rsp_ok := fun r hr _ => by
      obtain rfl := Option.some.inj hr
      exact ⟨rfl, rfl⟩
    table := fun hc => { h.table hc with } }

/-- The store and the registers of a table, apart, while a table exists. -/
theorem StateInv.tableStore (hc : s.cfg = true) : TableStore s.config s.ibits s.mem :=
  ⟨h.mem_wf, h.mem_below, (h.table hc).prefix_ok, (h.table hc).nodup_ok⟩

theorem StateInv.setMem {m : Memory} (hm : TableStore s.config s.ibits m) :
    StateInv (setMem s m) :=
  { h with
    mem_wf := hm.wf
    mem_below := hm.below
    table := fun hc => { h.table hc with prefix_ok := hm.prefix_ok, nodup_ok := hm.nodup_ok } }

theorem StateInv.countDrop (drop : Bool) : StateInv (countDrop drop s) := by
  cases drop
  · exact h
  · exact { h with table := fun hc => { h.table hc with } }

/-- `INSCNT` goes back to 0 before it passes `THRESH` (R32, R164). -/
theorem StateInv.advanceAging : StateInv (advanceAging s) := by
  rw [Machine.advanceAging]
  split
  case isTrue hlt =>
    exact { h with table := fun hc => { h.table hc with inscnt_le := Nat.zero_le _ } }
  case isFalse hle =>
    exact { h with table := fun hc => { h.table hc with inscnt_le := Nat.le_of_not_lt hle } }

/-- A new table that fits the store has the invariant (R40, R195). -/
theorem StateInv.newTable {ib : Nat} (h1 : 1 ≤ ib) (hib : ib ≤ s.config.ibitsMax) (draw : DWord) :
    StateInv (newTable ib draw s) :=
  have hm := tableStore_clearBuckets ib h.mem_wf h.mem_below
  { h with
    mem_wf := hm.wf
    mem_below := hm.below
    table := fun _ => ⟨h1, hib, rfl, Nat.zero_le _, hm.prefix_ok, hm.nodup_ok⟩ }

/-- The sweep of `FLUSH` keeps the invariant (R204, R205). -/
theorem StateInv.flushed : StateInv
    { s with mem := clearBuckets s.mem (tableBuckets s.ibits), epoch := 1, inscnt := 0 } :=
  have hm := tableStore_clearBuckets s.ibits h.mem_wf h.mem_below
  { h with
    mem_wf := hm.wf
    mem_below := hm.below
    table := fun hc =>
      { h.table hc with
        inscnt_le := Nat.zero_le _, prefix_ok := hm.prefix_ok, nodup_ok := hm.nodup_ok } }

/-- Without a table the registers and the store may lose their values (R41, R203). -/
theorem StateInv.voidTable (hc : s.cfg = false) : StateInv (voidTable s) :=
  { h with
    mem_wf := storeOf_wf _ _
    mem_below := storeOf_below _ _
    table := fun hc' => absurd (hc.symm.trans hc') Bool.false_ne_true }

theorem StateInv.dropTable : StateInv { s with cfg := false } :=
  { h with table := fun hc => absurd hc Bool.false_ne_true }

theorem StateInv.hardReset : StateInv (hardReset s) := by
  have hcleared : StateInv { s with cfg := false, errs := false, lasterr := .ok, rsp := none } :=
    { h with
      errs_iff := ⟨fun _ => rfl, fun _ => rfl⟩
      rsp_ok := fun _ hr => absurd hr (Option.some_ne_none _).symm
      table := fun hc => absurd hc Bool.false_ne_true }
  exact hcleared.voidTable rfl

/-! ### The table operations -/

/-- `IBITS` of a table is at most 31 (R9, R26). -/
theorem StateInv.ibits_le_31 (hib : s.ibits ≤ s.config.ibitsMax) : s.ibits ≤ 31 := by
  obtain ⟨-, -, -, -, -, -, -, hmax⟩ := h.legal
  omega

/-- Both candidate digests are nonzero (R104). -/
theorem StateInv.derive_digest_ne_zero (x : DWord) :
    (derive s.config s.ibits x).digest1 ≠ 0 ∧ (derive s.config s.ibits x).digest2 ≠ 0 := by
  obtain ⟨-, -, -, hsentinel, -⟩ := h.legal
  exact ⟨digestBits_ne_zero _ _ hsentinel, digestBits_ne_zero _ _ hsentinel⟩

section
variable (hc : s.cfg = true) {b : Nat} (hb : b < tableBuckets s.ibits)
include hc hb

/-- The state after a lookup that answered (R123, R125, R126, R127, R157, R180). -/
theorem StateInv.lookup {d : Digest} (hd : d ≠ 0) (res : Bool) (val : DWord) :
    StateInv (Machine.respond res val (Machine.setMem s (Machine.lookup s.mem b d).2)) :=
  (h.setMem ((h.tableStore hc).lookup (h.table hc).ibits_le hb hd)).respond res val

/-- The state after a removal that answered (R189). -/
theorem StateInv.compact {d : Digest} {k : Nat} (hf : findSlot (slotsOf s.mem b) d = some k)
    (res : Bool) (val : DWord) :
    StateInv (Machine.respond res val (Machine.setMem s (Machine.compact s.mem b k))) :=
  (h.setMem ((h.tableStore hc).compact (h.table hc).ibits_le hb hf)).respond res val

end

/-- The state after a new digest was placed and its drop, if any, counted (R161, R162). -/
theorem StateInv.placeDigest (hc : s.cfg = true) {dst : Destination}
    (hb : dst.bucket.toNat < tableBuckets s.ibits) (hd : dst.digest ≠ 0)
    (hnew : dst.digest ∉ slotsOf s.mem dst.bucket.toNat) :
    StateInv (placeDigest dst (Machine.countDrop dst.drop s)) := by
  have hstore := (h.tableStore hc).insert (h.table hc).ibits_le hb hd hnew s.epoch
  exact (h.countDrop dst.drop).setMem (by simpa using hstore)

end

/-! ### The commands and the host's actions -/

/-- The smallest width looked for is a bound of the width found (R196). -/
theorem le_widthFrom (fuel ib cap : Nat) : ib ≤ widthFrom fuel ib cap := by
  induction fuel generalizing ib with
  | zero => exact le_rfl
  | succ fuel ih =>
    rw [widthFrom]
    split
    · exact le_rfl
    · exact (Nat.le_succ ib).trans (ih (ib + 1))

/-- The destination of an inserting `SET` is a bucket of the table that does not hold its digest. -/
theorem arbitrate_destination {s : State} (h : StateInv s) (hib : s.ibits ≤ s.config.ibitsMax)
    {x : DWord} {dst : Destination} {e1 e2 : Nat} {st1 st2 : Byte}
    (h1 : (derive s.config s.ibits x).digest1 ∉
      slotsOf s.mem (derive s.config s.ibits x).index1.toNat)
    (h2 : (derive s.config s.ibits x).digest2 ∉
      slotsOf s.mem (derive s.config s.ibits x).index2.toNat)
    (hdst : dst = arbitrate (derive s.config s.ibits x) e1 e2 s.epoch st1 st2) :
    dst.bucket.toNat < tableBuckets s.ibits ∧ dst.digest ≠ 0 ∧
      dst.digest ∉ slotsOf s.mem dst.bucket.toNat := by
  have hib31 := h.ibits_le_31 hib
  obtain ⟨hd1, hd2⟩ := h.derive_digest_ne_zero x
  subst hdst
  rcases arbitrate_cases (derive s.config s.ibits x) e1 e2 s.epoch st1 st2 with
    ⟨hb, hd⟩ | ⟨hb, hd⟩ <;> rw [hb, hd]
  · exact ⟨derive_index1_lt _ _ hib31, hd1, h1⟩
  · exact ⟨derive_index2_lt _ _ hib31, hd2, h2⟩

/-- Every answer of a command keeps the invariant. -/
theorem Answers.keeps_inv {i : Instr} {s t : State} (ha : Answers i s t) (h : StateInv s) :
    StateInv t := by
  have hi1 := fun x hs => derive_index1_lt s.config x (h.ibits_le_31 hs)
  have hi2 := fun x hs => derive_index2_lt s.config x (h.ibits_le_31 hs)
  have hd1 := fun x => (h.derive_digest_ne_zero x).1
  have hd2 := fun x => (h.derive_digest_ne_zero x).2
  cases ha with
  | refused _ _ e he => exact h.refuse he
  | create cap _ hc hw => exact (h.newTable (le_widthFrom 58 1 _) hw _).respond _ _
  | destroy _ hc => exact (h.dropTable.voidTable rfl).respond _ _
  | flush _ hc hs => exact h.flushed.respond _ _
  | rdreg | rdw | deriv1 | deriv2 | deleteMiss => exact h.respond _ _
  | blkup idx d _ hc hs hr hd => exact h.lookup hc hr hd _ _
  | blkupc idx d _ hc hs hr hd => exact h.lookup hc hr hd _ _
  | checkFirst x _ hc hs => exact h.lookup hc (hi1 x hs) (hd1 x) _ _
  | checkSecond x _ hc hs => exact h.lookup hc (hi2 x hs) (hd2 x) _ _
  | setFirst x _ hc hs => exact h.lookup hc (hi1 x hs) (hd1 x) _ _
  | setSecond x _ hc hs => exact h.lookup hc (hi2 x hs) (hd2 x) _ _
  | setInsert x _ dst hc hs h1 h2 hdst =>
    obtain ⟨hb, hd, hnew⟩ := arbitrate_destination h hs h1 h2 hdst
    exact (h.placeDigest hc hb hd hnew).advanceAging.respond _ _
  | deleteFirst x _ k hc hs hf => exact h.compact hc (hi1 x hs) hf _ _
  | deleteSecond x _ k hc hs h1 hf => exact h.compact hc (hi2 x hs) hf _ _

/-- An issued word is refused or run; both keep the invariant (R263). -/
theorem runCommand_keeps_inv {c : CommandWord} {s t : State} (h : StateInv s)
    (hrun : runCommand c s = .next t) : StateInv t := by
  rw [runCommand] at hrun
  split at hrun
  · exact (exec_answers _ s t hrun).keeps_inv h
  · injection hrun with hrun
    exact hrun ▸ h.refuse (by simp)

/-- Every action of the host keeps the invariant (R262). -/
theorem acceptAction_keeps_inv {s : State} (h : StateInv s) : StateInv (acceptAction s).2 := by
  rw [acceptAction]
  split
  case h_1 => exact h
  case h_2 | h_3 | h_5 => exact h.hostSide _ _ h.rsp_ok
  case h_4 => exact h.hostSide _ _ fun _ hr => absurd hr (Option.some_ne_none _).symm
  case h_6 => exact (h.hostSide _ _ h.rsp_ok).hardReset

/-- Settles O13: the host's action keeps the invariant, and so does the command it may issue. -/
theorem everyStepKeepsTheInvariant : Obligations.EveryStepKeepsTheInvariant := by
  intro s t h hstep
  have hact := acceptAction_keeps_inv h
  rw [step] at hstep
  split at hstep
  case h_1 s' he =>
    injection hstep with hstep
    rw [he] at hact
    exact hstep ▸ hact
  case h_2 c s' he =>
    rw [he] at hact
    exact runCommand_keeps_inv hact hstep

end Sys2Proof.Machine
end

section
/-! PROOFS. The registers of `10_state.md`: which command can change which, what `CREATE` and
`DESTROY` make of them, what reset leaves and what `RDREG` reads (R24 to R41). -/

namespace Sys2Proof.Machine

/-! ### What a command can change (R36) -/

section
variable {i : Instr} {s t : State} (ha : Answers i s t)
include ha

/-- The parameters, the host's list and the port are nobody's to write (R20, R71). -/
theorem Answers.keeps_host_side :
    t.config = s.config ∧ t.inputs = s.inputs ∧ t.randIn = s.randIn := by
  cases ha with
  | setInsert => simp
  | _ => exact ⟨rfl, rfl, rfl⟩

/-- Only `CREATE` and `DESTROY` write the registers that describe the table. -/
theorem Answers.keeps_table_shape (hcreate : ∀ cap, i ≠ .create cap)
    (hdestroy : ∀ arg, i ≠ .destroy arg) :
    t.cfg = s.cfg ∧ t.ibits = s.ibits ∧ t.seed = s.seed ∧ t.thresh = s.thresh := by
  cases ha with
  | create cap => exact absurd rfl (hcreate cap)
  | destroy => exact absurd rfl (hdestroy 0)
  | setInsert => simp
  | _ => exact ⟨rfl, rfl, rfl, rfl⟩

/-- Of the other commands only `SET` writes `DROPS`, and only `SET` and `FLUSH` write the aging
registers. -/
theorem Answers.keeps_counters (hcreate : ∀ cap, i ≠ .create cap)
    (hdestroy : ∀ arg, i ≠ .destroy arg) (hset : ∀ h, i ≠ .set h) :
    t.drops = s.drops ∧ ((∀ arg, i ≠ .flush arg) → t.epoch = s.epoch ∧ t.inscnt = s.inscnt) := by
  cases ha with
  | create cap => exact absurd rfl (hcreate cap)
  | destroy => exact absurd rfl (hdestroy 0)
  | setFirst h | setSecond h | setInsert h => exact absurd rfl (hset h)
  | flush => exact ⟨rfl, fun hflush => absurd rfl (hflush 0)⟩
  | _ => exact ⟨rfl, fun _ => ⟨rfl, rfl⟩⟩

/-- The commands that only read leave the store alone. -/
theorem Answers.reader_keeps_mem (hreads : (∃ rsv rn, i = .rdreg rsv rn) ∨
      (∃ idx rsv wn, i = .rdw idx rsv wn) ∨ (∃ h, i = .deriv1 h) ∨ (∃ h, i = .deriv2 h)) :
    t.mem = s.mem := by
  cases ha with
  | refused | rdreg | rdw | deriv1 | deriv2 | deleteMiss => rfl
  | _ => simp at hreads

end

/-- Settles O18, from the inversion of `exec`. -/
theorem commandsWriteOnlyWhatTheTableLists : Obligations.CommandsWriteOnlyWhatTheTableLists := by
  intro i s t h
  have ha := exec_answers i s t h
  refine ⟨ha.keeps_host_side, fun hcreate hdestroy => ?_, ha.reader_keeps_mem⟩
  obtain ⟨hcfg, hibits, hseed, hthresh⟩ := ha.keeps_table_shape hcreate hdestroy
  exact ⟨hcfg, hibits, hseed, hthresh, ha.keeps_counters hcreate hdestroy⟩

/-! ### `CREATE` (R40, R195, R196) -/

/-- The width found gives the slots asked for, if the largest width looked at does. -/
theorem le_capacity_widthFrom {fuel ib cap : Nat} (hcap : cap ≤ 42 * 2 ^ (ib + fuel)) :
    cap ≤ 42 * 2 ^ widthFrom fuel ib cap := by
  induction fuel generalizing ib with
  | zero => exact hcap
  | succ fuel ih =>
    rw [widthFrom]
    split
    case isTrue hfits => exact hfits
    case isFalse => exact ih (by rwa [Nat.add_right_comm])

/-- No width from the first one looked at on that gives the slots asked for is below the one
found. -/
theorem widthFrom_le {fuel ib cap j : Nat} (hj : ib ≤ j) (hcap : cap ≤ 42 * 2 ^ j) :
    widthFrom fuel ib cap ≤ j := by
  induction fuel generalizing ib with
  | zero => exact hj
  | succ fuel ih =>
    rw [widthFrom]
    split
    case isTrue => exact hj
    case isFalse hsmall =>
      have hne : ib ≠ j := fun e => hsmall (e ▸ hcap)
      exact ih (by omega)

/-- `CREATE` takes the least width of at least 1 that gives the slots asked for (R196). -/
theorem widthFor_least (cap : DWord) : 1 ≤ widthFor cap ∧ cap.toNat ≤ 42 * 2 ^ widthFor cap ∧
    ∀ j, 1 ≤ j → cap.toNat ≤ 42 * 2 ^ j → widthFor cap ≤ j := by
  have hmax : cap.toNat ≤ 42 * 2 ^ (1 + 58) := by
    have := cap.isLt
    omega
  exact ⟨le_widthFrom _ _ _, le_capacity_widthFrom hmax, fun _ => widthFrom_le⟩

/-- `CREATE` with no table in the way and room for the new one (R195). -/
theorem execCreate_of_fits {cap : DWord} {s : State} (hc : s.cfg = false)
    (hfits : widthFor cap ≤ s.config.ibitsMax) :
    execCreate cap s = .next
      (respond true (capacityOf (widthFor cap)) (newTable (widthFor cap) s.randIn s)) := by
  rw [execCreate, if_neg (by simp [hc])]
  exact if_neg (Nat.not_lt.2 hfits)

/-- A byte of a swept table reads 0, every other byte as before (R195, R204). -/
theorem readByte_clearTable (m : Memory) (ib a : Nat) :
    readByte (clearBuckets m (tableBuckets ib)) a =
      if a < 128 * 2 ^ ib then 0 else readByte m a := by
  rw [readByte_clearBuckets, show 64 * tableBuckets ib = 128 * 2 ^ ib by
    rw [tableBuckets, isize]
    omega]
  rfl

/-- Settles O48: the least width fits whenever the capacity does, and the sweep zeroes the table. -/
theorem createMakesAnEmptyTable : Obligations.CreateMakesAnEmptyTable := by
  intro cap s hlegal hc hcap
  obtain ⟨-, -, -, -, -, -, hmax, -⟩ := hlegal
  have hleast := widthFor_least cap
  have hfits : widthFor cap ≤ s.config.ibitsMax := hleast.2.2 _ hmax hcap
  exact ⟨widthFor cap, clearBuckets s.mem (tableBuckets (widthFor cap)), hleast, hfits,
    readByte_clearTable s.mem (widthFor cap), execCreate_of_fits hc hfits⟩

/-! ### `DESTROY` (R41, R202, R203) -/

/-- A well-formed operand passes step 2 of R223, and step 3 refuses. -/
theorem requireOperand_of_no_table {good : Bool} {s : State} (hgood : good = true)
    (hc : s.cfg = false) (k : Result) :
    requireOperand good s (requireTable s k) = .next (refuse .noTable s) := by
  rw [hgood, requireOperand_true, requireTable_of_not_cfg hc]

/-- Without a table every command that needs one, its operand well-formed, is refused with
`E_NOTABLE` (R223, steps 2 and 3). -/
theorem exec_of_no_table {i : Instr} {s : State} (hc : s.cfg = false) (hwf : i.wf = true)
    (hneeds : needsTable i = true) : exec i s = .next (refuse .noTable s) := by
  cases i with
  | create => cases hneeds
  | check | set | delete | deriv1 | deriv2 => exact requireTable_of_not_cfg hc _
  | destroy | flush | blkup | blkupc | rdw => exact requireOperand_of_no_table hwf hc _
  | rdreg rsv rn =>
    have hrn : ¬ rn.toNat < 2 := Nat.not_lt.2 (of_decide_eq_true hneeds)
    rw [exec, execRdreg, if_neg hrn]
    exact requireOperand_of_no_table hwf hc _

/-- `DESTROY` of a table (R202). -/
theorem execDestroy_of_cfg {s : State} (hc : s.cfg = true) :
    execDestroy 0 s = .next (respond false 0 (voidTable { s with cfg := false })) :=
  requireTable_of_cfg hc _

/-- Settles O49: `CFG` is clear after `DESTROY`, so the table check refuses. -/
theorem destroyLeavesNothingReadable : Obligations.DestroyLeavesNothingReadable := fun _ hc =>
  ⟨_, execDestroy_of_cfg hc, rfl, rfl, rfl, rfl, rfl, rfl, rfl, fun _ => exec_of_no_table rfl⟩

/-! ### Reset (R39, R250) -/

/-- Settles O9, by evaluation of the one fixed state. -/
theorem resetLeavesNoTable : Obligations.ResetLeavesNoTable := ⟨rfl, rfl, rfl, rfl, by decide⟩

/-- Settles O14: there is no table, no refusal and no response, and the store lists nothing. -/
theorem theInvariantHoldsAtReset : Obligations.TheInvariantHoldsAtReset where
  legal := by decide
  mem_wf := Memory.wf_nil
  mem_below := fun _ hd => absurd hd List.not_mem_nil
  errs_iff := ⟨fun _ => rfl, fun _ => rfl⟩
  rsp_ok := fun _ hr => absurd hr (Option.some_ne_none _).symm
  table := fun hc => absurd hc Bool.false_ne_true

/-! ### `RDREG` (R24 to R34, R210) -/

/-- `RDREG` of a register that can be read in this state answers its value (R210). -/
theorem exec_rdreg {rn : BitVec 8} {s : State} {v : DWord} (hrn : rn.toNat ≤ 10)
    (hready : rn.toNat < 2 ∨ s.cfg = true) (hv : readReg s rn.toNat = v) :
    exec (.rdreg 0 rn) s = .next (respond false v s) := by
  have hwf : formatROk 0 rn = true := (formatROk_iff _ _).2 ⟨rfl, hrn⟩
  rw [exec, execRdreg, hwf, requireOperand_true, hv]
  split
  case isTrue => rfl
  case isFalse hge => exact requireTable_of_cfg (hready.resolve_left hge) _

/-- `STATUS` as a number (R24). -/
theorem statusWord_eq (s : State) : statusWord s =
    BitVec.ofNat 64 (16 * (errCode s.lasterr).toNat + 2 * s.errs.toNat + s.cfg.toNat) := by
  rw [statusWord]
  generalize errCode s.lasterr = e
  cases s.errs <;> cases s.cfg <;> revert e <;> decide

/-- Settles O52, register by register. -/
theorem rdregReadsEveryRegister : Obligations.RdregReadsEveryRegister := by
  intro s read
  have hword : ∀ w : DWord, w = BitVec.ofNat 64 w.toNat := fun w => by simp
  refine ⟨⟨exec_rdreg (by decide) (.inl (by decide)) (statusWord_eq s),
    exec_rdreg (by decide) (.inl (by decide)) rfl⟩, fun hc => ?_⟩
  have htable : ∀ {rn : BitVec 8} {v : Nat}, rn.toNat ≤ 10 →
      readReg s rn.toNat = BitVec.ofNat 64 v → read rn v := fun hrn => exec_rdreg hrn (.inr hc)
  exact ⟨htable (by decide) rfl, htable (by decide) rfl, htable (by decide) rfl,
    htable (by decide) rfl, htable (by decide) (hword s.seed),
    htable (by decide) (BitVec.ofNat_toNat 64 s.epoch).symm, htable (by decide) (hword s.inscnt),
    htable (by decide) (hword s.thresh), htable (by decide) (hword s.drops)⟩

end Sys2Proof.Machine
end

section
/-! PROOFS. What the host cannot tell apart (`70_reset_and_hazards.md` R264): two runs of one
command, first from states that differ in what is arbitrary, then from states that differ in the
seed and the draw. The checks of R223 are treated once for both. -/

namespace Sys2Proof.Machine

/-! ### Two answers, side by side -/

/-- Whenever the first answer is a next state, so is the second, and the two states are related. -/
def Follows (R : State → State → Prop) (r r' : Result) : Prop :=
  ∀ s, r = .next s → ∃ t, r' = .next t ∧ R s t

theorem Follows.next {R : State → State → Prop} {s t : State} (h : R s t) :
    Follows R (.next s) (.next t) := fun _ hs => by
  injection hs with hs
  exact ⟨t, rfl, hs ▸ h⟩

/-- Related states that read alike for the checks of R223 and can be refused alike. -/
structure ChecksAlike (R : State → State → Prop) (s t : State) : Prop where
  config : s.config = t.config
  cfg : s.cfg = t.cfg
  ibits : s.cfg = true → s.ibits = t.ibits
  refuse : ∀ e, R (refuse e s) (refuse e t)

section
variable {R : State → State → Prop} {s t : State} (h : ChecksAlike R s t) {k k' : Result}
include h

theorem ChecksAlike.requireOperand (good : Bool) (hk : Follows R k k') :
    Follows R (requireOperand good s k) (requireOperand good t k') := by
  cases good
  · exact .next (h.refuse _)
  · exact hk

theorem ChecksAlike.requireTable (hk : s.cfg = true → Follows R k k') :
    Follows R (requireTable s k) (requireTable t k') := by
  cases hc : s.cfg
  · rw [requireTable_of_not_cfg hc, requireTable_of_not_cfg (h.cfg ▸ hc)]
    exact .next (h.refuse _)
  · rw [requireTable_of_cfg hc, requireTable_of_cfg (h.cfg ▸ hc)]
    exact hk hc

theorem ChecksAlike.requireRange (hc : s.cfg = true) (idx : Nat)
    (hk : idx < tableBuckets s.ibits → Follows R k k') :
    Follows R (requireRange idx s k) (requireRange idx t k') := by
  rw [Machine.requireRange, Machine.requireRange, ← h.ibits hc]
  split
  case isTrue hlt => exact hk hlt
  case isFalse => exact .next (h.refuse _)

theorem ChecksAlike.requireStore (hc : s.cfg = true)
    (hk : s.ibits ≤ s.config.ibitsMax → Follows R k k') :
    Follows R (requireStore s k) (requireStore t k') := by
  rw [Machine.requireStore, Machine.requireStore, ← h.ibits hc, ← h.config]
  split
  case isTrue hle => exact hk hle
  case isFalse => exact fun _ hs => nomatch hs

end

/-! ### Stores that agree on the table -/

/-- The two stores hold the same words in the buckets `0 .. n-1`. -/
def SameBuckets (n : Nat) (m m' : Memory) : Prop := ∀ a < 16 * n, memRead m a = memRead m' a

/-- The sweep leaves nothing of what was there (R195, R204). -/
theorem sameBuckets_clearBuckets (n : Nat) (m m' : Memory) :
    SameBuckets n (clearBuckets m n) (clearBuckets m' n) := fun a ha => by
  rw [memRead_clearBuckets, if_pos ha, memRead_clearBuckets, if_pos ha]

section
variable {n b : Nat} {m m' : Memory} (h : SameBuckets n m m')
include h

section
variable (hb : b < n)
include hb

theorem SameBuckets.memRead_wordAddr {i : Nat} (hi : i < 16) :
    memRead m (wordAddr b i) = memRead m' (wordAddr b i) :=
  h _ (by unfold wordAddr; omega)

theorem SameBuckets.decodeBucket : decodeBucket m b = decodeBucket m' b :=
  decodeBucket_congr fun _ hi => h.memRead_wordAddr hb hi

theorem SameBuckets.slotsOf : slotsOf m b = slotsOf m' b := by
  rw [Machine.slotsOf, Machine.slotsOf, h.decodeBucket hb]

theorem SameBuckets.stampOf : stampOf m b = stampOf m' b := by
  rw [stampOf_eq, stampOf_eq, h.decodeBucket hb]

end

variable (hwf : Memory.wf m = true) (hwf' : Memory.wf m' = true)
include hwf hwf'

theorem SameBuckets.encodeBucket (b : Nat) (lb : LogicalBucket) :
    SameBuckets n (encodeBucket m b lb) (encodeBucket m' b lb) := fun a ha => by
  rw [memRead_encodeBucket b a lb hwf, memRead_encodeBucket b a lb hwf', h a ha]

variable (hb : b < n)
include hb

theorem SameBuckets.promote (k : Nat) : SameBuckets n (promote m b k) (promote m' b k) := by
  rw [promote_eq, promote_eq, h.slotsOf hb, h.decodeBucket hb]
  exact h.encodeBucket hwf hwf' b _

theorem SameBuckets.compact (k : Nat) : SameBuckets n (compact m b k) (compact m' b k) := by
  rw [compact_eq, compact_eq, h.slotsOf hb, h.decodeBucket hb]
  exact h.encodeBucket hwf hwf' b _

theorem SameBuckets.insertFront (d : Digest) :
    SameBuckets n (insertFront m b d) (insertFront m' b d) := by
  rw [insertFront_eq, insertFront_eq, h.slotsOf hb, h.decodeBucket hb]
  exact h.encodeBucket hwf hwf' b _

theorem SameBuckets.setStamp (v : Byte) : SameBuckets n (setStamp m b v) (setStamp m' b v) := by
  intro a ha
  rw [Machine.setStamp, Machine.setStamp, h.memRead_wordAddr hb (by omega),
    memRead_memWrite _ _ _ hwf, memRead_memWrite _ _ _ hwf', h a ha]

/-- A lookup in the table answers alike and leaves stores that agree (R123). -/
theorem SameBuckets.lookup (d : Digest) :
    (lookup m b d).1 = (lookup m' b d).1 ∧ SameBuckets n (lookup m b d).2 (lookup m' b d).2 := by
  rw [Machine.lookup, Machine.lookup, h.decodeBucket hb]
  split
  · exact ⟨rfl, h⟩
  · exact ⟨rfl, h.promote hwf hwf' hb _⟩

end

/-- Both candidates are buckets of a table that lies in the store (R102, R103). -/
theorem derive_indices_lt {c : Config} {ib : Nat} (hlegal : c.Legal) (hib : ib ≤ c.ibitsMax)
    (x : DWord) : (derive c ib x).index1.toNat < tableBuckets ib ∧
      (derive c ib x).index2.toNat < tableBuckets ib := by
  obtain ⟨-, -, -, -, -, -, -, hmax⟩ := hlegal
  exact ⟨derive_index1_lt c x (hib.trans hmax), derive_index2_lt c x (hib.trans hmax)⟩

/-! ### States that differ in what is arbitrary -/

/-- Without a table the host sees none of its registers and words (R41). -/
theorem sameVisible_of_not_cfg {s t : State} (hc : s.cfg = false) (hconfig : s.config = t.config)
    (hinputs : s.inputs = t.inputs) (hrandIn : s.randIn = t.randIn) (hrsp : s.rsp = t.rsp)
    (hcfg : s.cfg = t.cfg) (herrs : s.errs = t.errs) (hlasterr : s.lasterr = t.lasterr) :
    SameVisible s t :=
  have unseen : ∀ {p : Prop}, s.cfg = true → p := fun hc' =>
    absurd (hc.symm.trans hc') Bool.false_ne_true
  ⟨hconfig, hinputs, hrandIn, hrsp, hcfg, herrs, hlasterr, unseen, unseen, unseen, unseen, unseen,
    unseen, unseen⟩

section
variable {s t : State} (h : SameVisible s t)
include h

/-- While a table exists, states the host cannot tell apart differ in the store and in the model's
own counter only. -/
theorem SameVisible.exists_mem (hc : s.cfg = true) : ∃ m n,
    t = { s with mem := m, freeCount := n } ∧ SameBuckets (tableBuckets s.ibits) s.mem m := by
  refine ⟨t.mem, t.freeCount, ?_, h.words hc⟩
  rw [h.config, h.inputs, h.randIn, h.rsp, h.cfg, h.errs, h.lasterr, h.ibits hc, h.seed hc,
    h.epoch hc, h.inscnt hc, h.thresh hc, h.drops hc]

theorem SameVisible.respond (res : Bool) (val : DWord) :
    SameVisible (respond res val s) (respond res val t) := { h with rsp := rfl }

theorem SameVisible.refuse (e : ErrCode) : SameVisible (refuse e s) (refuse e t) :=
  { h with errs := rfl, lasterr := rfl, rsp := rfl }

theorem SameVisible.checksAlike : ChecksAlike SameVisible s t := { h with refuse := h.refuse }

/-- A new table is the same table whatever was there before (R40). -/
theorem SameVisible.newTable (ib : Nat) (draw : DWord) :
    SameVisible (newTable ib draw s) (newTable ib draw t) :=
  { h with
    cfg := rfl, ibits := fun _ => rfl, seed := fun _ => rfl, epoch := fun _ => rfl
    inscnt := fun _ => rfl, thresh := fun _ => rfl, drops := fun _ => rfl
    words := fun _ => sameBuckets_clearBuckets _ _ _ }

/-- Without a table the registers may lose their values unseen (R41, R203). -/
theorem SameVisible.voidTable (hc : s.cfg = false) :
    SameVisible (voidTable s) (voidTable t) :=
  sameVisible_of_not_cfg hc h.config h.inputs h.randIn h.rsp h.cfg h.errs h.lasterr

theorem SameVisible.hardReset : SameVisible (hardReset s) (hardReset t) :=
  sameVisible_of_not_cfg rfl h.config h.inputs h.randIn rfl rfl rfl rfl

/-- Every store may follow that agrees on the table. -/
theorem SameVisible.setMem {m m' : Memory}
    (hm : s.cfg = true → SameBuckets (tableBuckets s.ibits) m m') :
    SameVisible (setMem s m) (setMem t m') := { h with words := hm }

theorem SameVisible.countDrop (drop : Bool) :
    SameVisible (countDrop drop s) (countDrop drop t) := by
  cases drop
  · exact h
  · exact { h with drops := fun hc => congrArg (· + 1) (h.drops hc) }

/-- The sweep and the two registers of `FLUSH` (R204). -/
theorem SameVisible.flushed (hc : s.cfg = true) : SameVisible
    { s with mem := clearBuckets s.mem (tableBuckets s.ibits), epoch := 1, inscnt := 0 }
    { t with mem := clearBuckets t.mem (tableBuckets t.ibits), epoch := 1, inscnt := 0 } :=
  { h with
    epoch := fun _ => rfl
    inscnt := fun _ => rfl
    words := fun _ => h.ibits hc ▸ sameBuckets_clearBuckets _ _ _ }

/-- While a table exists the counters that `SET` advances are the same (R164). -/
theorem SameVisible.advanceAging (hc : s.cfg = true) :
    SameVisible (advanceAging s) (advanceAging t) := by
  rw [Machine.advanceAging, Machine.advanceAging, ← h.thresh hc, ← h.inscnt hc]
  split
  · exact { h with
      thresh := fun _ => rfl, inscnt := fun _ => rfl
      epoch := fun _ => congrArg (· + 1) (h.epoch hc) }
  · exact { h with thresh := fun _ => rfl, inscnt := fun _ => rfl }

/-- A register that can be read reads the same (R210). -/
theorem SameVisible.readReg {rn : Nat} (hready : rn < 2 ∨ s.cfg = true) :
    readReg s rn = readReg t rn := by
  by_cases hc : s.cfg = true
  · obtain ⟨m, n, rfl, -⟩ := h.exists_mem hc
    rfl
  · have hlt := hready.resolve_right hc
    interval_cases rn
    · rw [Machine.readReg, Machine.readReg, statusWord, statusWord, h.lasterr, h.errs, h.cfg]
    · rw [Machine.readReg, Machine.readReg, h.config]

/-! ### The commands, without a look at the store -/

theorem SameVisible.execCreate (cap : DWord) :
    Follows SameVisible (execCreate cap s) (execCreate cap t) := by
  rw [Machine.execCreate, Machine.execCreate, ← h.cfg, ← h.config, ← h.randIn]
  split
  · exact .next (h.refuse _)
  · dsimp only
    split
    · exact .next (h.refuse _)
    · exact .next ((h.newTable _ _).respond _ _)

theorem SameVisible.execDestroy (arg : DWord) :
    Follows SameVisible (execDestroy arg s) (execDestroy arg t) := by
  refine h.checksAlike.requireOperand _ (h.checksAlike.requireTable fun _ => .next ?_)
  have hdropped : SameVisible { s with cfg := false } { t with cfg := false } :=
    sameVisible_of_not_cfg rfl h.config h.inputs h.randIn h.rsp rfl h.errs h.lasterr
  exact (hdropped.voidTable rfl).respond _ _

theorem SameVisible.execFlush (arg : DWord) :
    Follows SameVisible (execFlush arg s) (execFlush arg t) :=
  h.checksAlike.requireOperand _ (h.checksAlike.requireTable fun hc =>
    h.checksAlike.requireStore hc fun _ => .next ((h.flushed hc).respond _ _))

theorem SameVisible.execRdreg (rsv : BitVec 56) (rn : BitVec 8) :
    Follows SameVisible (execRdreg rsv rn s) (execRdreg rsv rn t) := by
  refine h.checksAlike.requireOperand _ ?_
  split
  case isTrue hlt =>
    rw [h.readReg (.inl hlt)]
    exact .next (h.respond _ _)
  case isFalse =>
    refine h.checksAlike.requireTable fun hc => ?_
    rw [h.readReg (.inr hc)]
    exact .next (h.respond _ _)

/-- What is derived from the registers of a table is the same (R107). -/
theorem SameVisible.derive (hc : s.cfg = true) (x : DWord) :
    derive s.config s.ibits x = derive t.config t.ibits x := by
  rw [h.config, h.ibits hc]

theorem SameVisible.execDeriv1 (x : DWord) :
    Follows SameVisible (execDeriv1 x s) (execDeriv1 x t) :=
  h.checksAlike.requireTable fun hc => by
    rw [h.derive hc]
    exact .next (h.respond _ _)

theorem SameVisible.execDeriv2 (x : DWord) :
    Follows SameVisible (execDeriv2 x s) (execDeriv2 x t) :=
  h.checksAlike.requireTable fun hc => by
    rw [h.derive hc]
    exact .next (h.respond _ _)

/-! ### The commands that look at the store -/

theorem SameVisible.execRdw (idx : BitVec 32) (rsv : BitVec 28) (wn : BitVec 4) :
    Follows SameVisible (execRdw idx rsv wn s) (execRdw idx rsv wn t) := by
  refine h.checksAlike.requireOperand _ (h.checksAlike.requireTable fun hc =>
    h.checksAlike.requireRange hc _ fun hr => h.checksAlike.requireStore hc fun _ => ?_)
  have hm : SameBuckets _ _ _ := h.words hc
  rw [hm.memRead_wordAddr hr wn.isLt]
  exact .next (h.respond _ _)

section
variable (hwf : Memory.wf s.mem = true) (hwf' : Memory.wf t.mem = true)
include hwf hwf'

theorem SameVisible.execBlkup (idx : BitVec 32) (d : Digest) (rsv : BitVec 8) :
    Follows SameVisible (execBlkup idx d rsv s) (execBlkup idx d rsv t) := by
  refine h.checksAlike.requireOperand _ (h.checksAlike.requireTable fun hc =>
    h.checksAlike.requireRange hc _ fun hr => h.checksAlike.requireStore hc fun _ => ?_)
  have hm : SameBuckets _ _ _ := h.words hc
  obtain ⟨hfound, hmem⟩ := hm.lookup hwf hwf' hr d
  dsimp only
  rw [hfound]
  exact .next ((h.setMem fun _ => hmem).respond _ _)

theorem SameVisible.execBlkupc (idx : BitVec 32) (d : Digest) (rsv : BitVec 8) :
    Follows SameVisible (execBlkupc idx d rsv s) (execBlkupc idx d rsv t) := by
  refine h.checksAlike.requireOperand _ (h.checksAlike.requireTable fun hc =>
    h.checksAlike.requireRange hc _ fun hr => h.checksAlike.requireStore hc fun _ => ?_)
  have hm : SameBuckets _ _ _ := h.words hc
  obtain ⟨hfound, hmem⟩ := hm.lookup hwf hwf' hr d
  simp only [lookupCountingEmpty_eq]
  rw [hfound, hm.slotsOf hr]
  exact .next ((h.setMem fun _ => hmem).respond _ _)

/-- The placing of a digest in a bucket of the table (R162). -/
theorem SameVisible.placeDigest (hc : s.cfg = true) {dst : Destination}
    (hb : dst.bucket.toNat < tableBuckets s.ibits) :
    SameVisible (placeDigest dst s) (placeDigest dst t) := by
  have hm : SameBuckets _ _ _ := h.words hc
  rw [Machine.placeDigest, Machine.placeDigest, ← h.epoch hc]
  exact h.setMem fun _ => (hm.insertFront hwf hwf' hb _).setStamp (insertFront_wf _ _ hwf)
    (insertFront_wf _ _ hwf') hb _

variable (hlegal : s.config.Legal)
include hlegal

/-- `CHECK`: both candidates are buckets of the table (R102, R103, R180). -/
theorem SameVisible.execCheck (x : DWord) :
    Follows SameVisible (execCheck x s) (execCheck x t) := by
  refine h.checksAlike.requireTable fun hc => h.checksAlike.requireStore hc fun hs => ?_
  have hm : SameBuckets _ _ _ := h.words hc
  obtain ⟨hi1, hi2⟩ := derive_indices_lt hlegal hs x
  obtain ⟨hfound1, hmem1⟩ := hm.lookup hwf hwf' hi1 (Machine.derive s.config s.ibits x).digest1
  obtain ⟨hfound2, hmem2⟩ := hm.lookup hwf hwf' hi2 (Machine.derive s.config s.ibits x).digest2
  dsimp only
  rw [← h.derive hc, ← hfound1, ← hfound2]
  split
  · exact .next ((h.setMem fun _ => hmem1).respond _ _)
  · exact .next ((h.setMem fun _ => hmem2).respond _ _)

/-- `DELETE`: as `CHECK`, with a removal for the promotion (R188). -/
theorem SameVisible.execDelete (x : DWord) :
    Follows SameVisible (execDelete x s) (execDelete x t) := by
  refine h.checksAlike.requireTable fun hc => h.checksAlike.requireStore hc fun hs => ?_
  have hm : SameBuckets _ _ _ := h.words hc
  obtain ⟨hi1, hi2⟩ := derive_indices_lt hlegal hs x
  dsimp only
  rw [← h.derive hc, ← hm.decodeBucket hi1, ← hm.decodeBucket hi2]
  split
  · exact .next ((h.setMem fun _ => hm.compact hwf hwf' hi1 _).respond _ _)
  · split
    · exact .next ((h.setMem fun _ => hm.compact hwf hwf' hi2 _).respond _ _)
    · exact .next (h.respond _ _)

/-- `SET`: the lookups, the empty counts and the stamps are the same, and so the arbiter's choice
(R155, R166). -/
theorem SameVisible.execSet (x : DWord) :
    Follows SameVisible (execSet x s) (execSet x t) := by
  refine h.checksAlike.requireTable fun hc => h.checksAlike.requireStore hc fun hs => ?_
  have hm : SameBuckets _ _ _ := h.words hc
  obtain ⟨hi1, hi2⟩ := derive_indices_lt hlegal hs x
  obtain ⟨hfound1, hmem1⟩ := hm.lookup hwf hwf' hi1 (Machine.derive s.config s.ibits x).digest1
  obtain ⟨hfound2, hmem2⟩ := hm.lookup hwf hwf' hi2 (Machine.derive s.config s.ibits x).digest2
  simp only [lookupCountingEmpty_eq]
  rw [← h.derive hc, ← hfound1, ← hfound2, ← hm.slotsOf hi1, ← hm.slotsOf hi2, ← hm.stampOf hi1,
    ← hm.stampOf hi2, ← h.epoch hc]
  split
  · exact .next ((h.setMem fun _ => hmem1).respond _ _)
  · split
    · exact .next ((h.setMem fun _ => hmem2).respond _ _)
    · generalize hdst : arbitrate (Machine.derive s.config s.ibits x) _ _ _ _ _ = dst
      have hb : dst.bucket.toNat < tableBuckets s.ibits := by
        rcases arbitrate_cases (Machine.derive s.config s.ibits x) _ _ _ _ _ with hb | hb <;>
          rw [← hdst, hb.1] <;> assumption
      have hplaced := (h.countDrop dst.drop).placeDigest (by simpa) (by simpa) (by simpa) (by simpa)
      exact .next ((hplaced.advanceAging (by simpa)).respond _ _)

/-- Every command answers alike and leaves states that the host cannot tell apart. -/
theorem SameVisible.exec (i : Instr) : Follows SameVisible (exec i s) (exec i t) := by
  cases i with
  | create cap => exact h.execCreate cap
  | destroy arg => exact h.execDestroy arg
  | flush arg => exact h.execFlush arg
  | rdreg rsv rn => exact h.execRdreg rsv rn
  | check x => exact h.execCheck hwf hwf' hlegal x
  | set x => exact h.execSet hwf hwf' hlegal x
  | delete x => exact h.execDelete hwf hwf' hlegal x
  | deriv1 x => exact h.execDeriv1 x
  | deriv2 x => exact h.execDeriv2 x
  | blkup idx d rsv => exact h.execBlkup hwf hwf' idx d rsv
  | blkupc idx d rsv => exact h.execBlkupc hwf hwf' idx d rsv
  | rdw idx rsv wn => exact h.execRdw idx rsv wn

/-- So does every word the host can issue (R263). -/
theorem SameVisible.runCommand (c : CommandWord) :
    Follows SameVisible (runCommand c s) (runCommand c t) := by
  rw [Machine.runCommand, Machine.runCommand]
  split
  · exact h.exec hwf hwf' hlegal _
  · exact .next (h.refuse _)

end

/-- The host's next action is the same and has the same visible effect (R262). -/
theorem SameVisible.acceptAction : (acceptAction s).1 = (acceptAction t).1 ∧
    SameVisible (acceptAction s).2 (acceptAction t).2 := by
  rw [Machine.acceptAction, Machine.acceptAction, ← h.inputs]
  cases s.inputs with
  | nil => exact ⟨rfl, h⟩
  | cons action rest =>
    have hrest : SameVisible { s with inputs := rest } { t with inputs := rest } :=
      { h with inputs := rfl }
    cases action with
    | issue | wait => exact ⟨rfl, hrest⟩
    | drive => exact ⟨rfl, { hrest with randIn := rfl }⟩
    | take => exact ⟨rfl, { hrest with rsp := rfl }⟩
    | rst => exact ⟨rfl, hrest.hardReset⟩

end

/-! ### A command always answers (R220) -/

section
variable {s : State} {k : Result}

theorem requireOperand_progress (good : Bool) (hk : ∃ t, k = .next t) :
    ∃ t, requireOperand good s k = .next t := by
  cases good
  · exact ⟨_, rfl⟩
  · exact hk

theorem requireTable_progress (hk : s.cfg = true → ∃ t, k = .next t) :
    ∃ t, requireTable s k = .next t := by
  cases hc : s.cfg
  · exact ⟨_, requireTable_of_not_cfg hc k⟩
  · rw [requireTable_of_cfg hc]
    exact hk hc

theorem requireRange_progress (idx : Nat) (hk : ∃ t, k = .next t) :
    ∃ t, requireRange idx s k = .next t := by
  rw [requireRange]
  split
  · exact hk
  · exact ⟨_, rfl⟩

theorem requireStore_progress (hs : s.ibits ≤ s.config.ibitsMax) (hk : ∃ t, k = .next t) :
    ∃ t, requireStore s k = .next t := by
  rwa [requireStore_of_le hs]

end

/-- While its table, if any, lies in the store, the block answers every command. -/
theorem exec_progress (i : Instr) {s : State}
    (hs : s.cfg = true → s.ibits ≤ s.config.ibitsMax) : ∃ t, exec i s = .next t := by
  cases i with
  | create cap =>
    rw [exec, execCreate]
    split
    · exact ⟨_, rfl⟩
    · dsimp only
      split <;> exact ⟨_, rfl⟩
  | destroy => exact requireOperand_progress _ (requireTable_progress fun _ => ⟨_, rfl⟩)
  | flush =>
    exact requireOperand_progress _ (requireTable_progress fun hc =>
      requireStore_progress (hs hc) ⟨_, rfl⟩)
  | rdreg =>
    refine requireOperand_progress _ ?_
    split
    · exact ⟨_, rfl⟩
    · exact requireTable_progress fun _ => ⟨_, rfl⟩
  | deriv1 | deriv2 => exact requireTable_progress fun _ => ⟨_, rfl⟩
  | blkup | blkupc | rdw =>
    exact requireOperand_progress _ (requireTable_progress fun hc =>
      requireRange_progress _ (requireStore_progress (hs hc) ⟨_, rfl⟩))
  | check x =>
    refine requireTable_progress fun hc => requireStore_progress (hs hc) ?_
    dsimp only
    split <;> exact ⟨_, rfl⟩
  | set x | delete x =>
    refine requireTable_progress fun hc => requireStore_progress (hs hc) ?_
    dsimp only
    split
    · exact ⟨_, rfl⟩
    · split <;> exact ⟨_, rfl⟩

theorem runCommand_progress (c : CommandWord) {s : State}
    (hs : s.cfg = true → s.ibits ≤ s.config.ibitsMax) : ∃ t, runCommand c s = .next t := by
  rw [runCommand]
  split
  · exact exec_progress _ hs
  · exact ⟨_, rfl⟩

/-- Taking an issued word off the host's list changes nothing else (R263). -/
theorem acceptAction_issued {s s' : State} {c : CommandWord}
    (h : acceptAction s = (some c, s')) : ∃ rest, s' = { s with inputs := rest } := by
  rw [acceptAction] at h
  split at h <;> simp at h
  exact ⟨_, h.2.symm⟩

/-- Settles O16: the host's action keeps the two states alike, and so does the command it may
issue. -/
theorem arbitraryStateIsNeverObserved : Obligations.ArbitraryStateIsNeverObserved := by
  intro s t hlegal hstore hwf hwf' h
  obtain ⟨hcmd, hact⟩ := h.acceptAction
  rw [step, step]
  cases hs : acceptAction s with | mk c s₁
  cases ht : acceptAction t with | mk c' t₁
  rw [hs, ht] at hcmd hact
  obtain rfl : c = c' := hcmd
  cases c with
  | none => exact ⟨s₁, t₁, rfl, rfl, hact⟩
  | some c =>
    obtain ⟨rest, rfl⟩ := acceptAction_issued hs
    obtain ⟨rest', rfl⟩ := acceptAction_issued ht
    obtain ⟨s', hs'⟩ := runCommand_progress c (s := { s with inputs := rest }) hstore
    obtain ⟨t', ht', hsame⟩ := hact.runCommand hwf hwf' hlegal c s' hs'
    exact ⟨s', t', hs', ht', hsame⟩

/-! ### The seed and the draw (R30, R198) -/

/-- The second state is the first with some seed and the draw on the port. -/
def SameButForTheDraw (draw : DWord) (s t : State) : Prop :=
  ∃ seed, t = { s with seed := seed, randIn := draw }

theorem sameButForTheDraw_checksAlike (s : State) (seed draw : DWord) :
    ChecksAlike (SameButForTheDraw draw) s { s with seed := seed, randIn := draw } :=
  ⟨rfl, rfl, fun _ => rfl, fun _ => ⟨seed, rfl⟩⟩

/-- A register other than `SEED` reads the same (R24 to R34). -/
theorem readReg_of_ne_seed {s : State} {rn : Nat} (hrn : rn ≠ 6) (seed draw : DWord) :
    readReg { s with seed := seed, randIn := draw } rn = readReg s rn := by
  unfold readReg
  split
  case h_7 => exact absurd rfl hrn
  all_goals rfl

section
variable {draw : DWord} {s t : State} (h : SameButForTheDraw draw s t)
include h

theorem SameButForTheDraw.countDrop (drop : Bool) :
    SameButForTheDraw draw (countDrop drop s) (countDrop drop t) := by
  obtain ⟨seed, rfl⟩ := h
  cases drop <;> exact ⟨seed, rfl⟩

theorem SameButForTheDraw.placeDigest (dst : Destination) :
    SameButForTheDraw draw (placeDigest dst s) (placeDigest dst t) := by
  obtain ⟨seed, rfl⟩ := h
  exact ⟨seed, rfl⟩

theorem SameButForTheDraw.advanceAging :
    SameButForTheDraw draw (advanceAging s) (advanceAging t) := by
  obtain ⟨seed, rfl⟩ := h
  refine ⟨seed, ?_⟩
  unfold Machine.advanceAging
  split <;> rfl

theorem SameButForTheDraw.respond (res : Bool) (val : DWord) :
    SameButForTheDraw draw (respond res val s) (respond res val t) := by
  obtain ⟨seed, rfl⟩ := h
  exact ⟨seed, rfl⟩

end

/-- Only `CREATE` takes the draw and only `RDREG SEED` shows the seed (R30, R198). -/
theorem exec_sameButForTheDraw {i : Instr} (hi : i ≠ .rdreg 0 6) (s : State) (seed draw : DWord) :
    Follows (SameButForTheDraw draw) (exec i s)
      (exec i { s with seed := seed, randIn := draw }) := by
  have hchecks := sameButForTheDraw_checksAlike s seed draw
  have hsame : SameButForTheDraw draw s { s with seed := seed, randIn := draw } := ⟨seed, rfl⟩
  cases i with
  | create cap =>
    rw [exec, exec, execCreate, execCreate]
    split
    · exact .next (hchecks.refuse _)
    · dsimp only
      split
      · exact .next (hchecks.refuse _)
      · exact .next ⟨draw, rfl⟩
  | destroy =>
    exact hchecks.requireOperand _ (hchecks.requireTable fun _ => .next ⟨_, rfl⟩)
  | flush =>
    exact hchecks.requireOperand _ (hchecks.requireTable fun hc =>
      hchecks.requireStore hc fun _ => .next ⟨seed, rfl⟩)
  | rdreg rsv rn =>
    by_cases h6 : rn.toNat = 6
    · have hrsv : rsv ≠ 0 := fun e => hi (by rw [e, BitVec.eq_of_toNat_eq (y := 6) h6])
      have hbad : formatROk rsv rn = false :=
        Bool.eq_false_iff.2 fun hok => hrsv ((formatROk_iff _ _).1 hok).1
      rw [exec, exec, execRdreg, execRdreg, hbad]
      exact .next (hchecks.refuse _)
    · refine hchecks.requireOperand _ ?_
      rw [readReg_of_ne_seed (s := s) h6 seed draw]
      split
      · exact .next ⟨seed, rfl⟩
      · exact hchecks.requireTable fun _ => .next ⟨seed, rfl⟩
  | deriv1 | deriv2 => exact hchecks.requireTable fun _ => .next ⟨seed, rfl⟩
  | blkup | blkupc | rdw =>
    exact hchecks.requireOperand _ (hchecks.requireTable fun hc =>
      hchecks.requireRange hc _ fun _ => hchecks.requireStore hc fun _ => .next ⟨seed, rfl⟩)
  | check x =>
    refine hchecks.requireTable fun hc => hchecks.requireStore hc fun _ => ?_
    dsimp only
    split <;> exact .next ⟨seed, rfl⟩
  | set x =>
    refine hchecks.requireTable fun hc => hchecks.requireStore hc fun _ => ?_
    dsimp only
    split
    · exact .next ⟨seed, rfl⟩
    · split
      · exact .next ⟨seed, rfl⟩
      · exact .next (((hsame.countDrop _).placeDigest _).advanceAging.respond false 0)
  | delete x =>
    refine hchecks.requireTable fun hc => hchecks.requireStore hc fun _ => ?_
    dsimp only
    split
    · exact .next ⟨seed, rfl⟩
    · split <;> exact .next ⟨seed, rfl⟩

/-- Settles O17, from the two runs of the command side by side. -/
theorem onlyReadingSeedDependsOnTheDraw : Obligations.OnlyReadingSeedDependsOnTheDraw := by
  intro i s t seed draw hi h
  obtain ⟨_, ht', seed', rfl⟩ := exec_sameButForTheDraw hi s seed draw t h
  exact ⟨seed', ht'⟩

end Sys2Proof.Machine
end

section
/-! PROOFS. The decoder and the encoder of command words undo one another, every word is a command or an
illegal opcode, and the operand checks as conditions on numbers (`30_encoding.md` R70, R75, R76, R83 to
R89, R92). -/

namespace Sys2Proof

/-! ### A command as an opcode and an operand (R75, R76) -/

/-- The twelve opcodes of the map (R75). -/
abbrev opcodes : List (BitVec 8) :=
  [0x01, 0x02, 0x03, 0x04, 0x10, 0x11, 0x12, 0x20, 0x21, 0x30, 0x31, 0x32]

/-- No bit of an operand is read twice: each field is read from the place it was put (R76). -/
theorem decodeFields_opcodeOf_operandOf (i : Instr) :
    decodeFields (opcodeOf i) (operandOf i) = .ok i := by
  cases i with
  | create | destroy | flush | check | set | delete | deriv1 | deriv2 => rfl
  | rdreg rsv rn =>
    have hrsv : (rsv ++ rn).extractLsb' 8 56 = rsv := extract_append_high rsv rn
    have hrn : (rsv ++ rn).extractLsb' 0 8 = rn := extract_append_low rsv rn
    simp [decodeFields, opcodeOf, operandOf, hrsv, hrn]
  | blkup idx d rsv | blkupc idx d rsv =>
    obtain ⟨hidx, hd, hrsv⟩ := extract_append3 idx d rsv
    simp [decodeFields, opcodeOf, operandOf, hidx, hd, hrsv]
  | rdw idx rsv wn =>
    obtain ⟨hidx, hrsv, hwn⟩ := extract_append3 idx rsv wn
    simp [decodeFields, opcodeOf, operandOf, hidx, hrsv, hwn]

/-- No bit of an operand is dropped: the fields of a format make up the whole of `ARG` (R76, R83). -/
theorem exists_opcodeOf_operandOf {op : BitVec 8} (hop : op ∈ opcodes) (arg : DWord) :
    ∃ i, opcodeOf i = op ∧ operandOf i = arg := by
  simp only [opcodes, List.mem_cons, List.not_mem_nil, or_false] at hop
  rcases hop with rfl | rfl | rfl | rfl | rfl | rfl | rfl | rfl | rfl | rfl | rfl | rfl
  · exact ⟨.create arg, rfl, rfl⟩
  · exact ⟨.destroy arg, rfl, rfl⟩
  · exact ⟨.flush arg, rfl, rfl⟩
  · exact ⟨.rdreg _ _, rfl, append_extract (m := 56) (n := 8) arg⟩
  · exact ⟨.check arg, rfl, rfl⟩
  · exact ⟨.set arg, rfl, rfl⟩
  · exact ⟨.delete arg, rfl, rfl⟩
  · exact ⟨.deriv1 arg, rfl, rfl⟩
  · exact ⟨.deriv2 arg, rfl, rfl⟩
  · exact ⟨.blkup _ _ _, rfl, append_extract3 (l := 32) (m := 24) (n := 8) arg⟩
  · exact ⟨.blkupc _ _ _, rfl, append_extract3 (l := 32) (m := 24) (n := 8) arg⟩
  · exact ⟨.rdw _ _ _, rfl, append_extract3 (l := 32) (m := 28) (n := 4) arg⟩

/-! ### What a word decodes to (R70, R83, R84, R92) -/

theorem decode_encode (i : Instr) : decode (encode i) = .ok i := by
  rw [encode, decode_append, decodeFields_opcodeOf_operandOf]

/-- An opcode outside the map is illegal (R84). -/
theorem decode_of_not_mem_opcodes {c : CommandWord} (h : opField c ∉ opcodes) :
    decode c = .error (.illegalOpcode (opField c)) := by
  simp only [opcodes, List.mem_cons, List.not_mem_nil, or_false, not_or,
    BitVec.ofNat_eq_ofNat] at h
  simpa [decode, h] using decodeFields_cases (opField c) (argField c)

/-- An opcode of the map makes the word a command's (R75, R92). -/
theorem exists_encode_eq_of_mem_opcodes {c : CommandWord} (h : opField c ∈ opcodes) :
    ∃ i, encode i = c := by
  obtain ⟨i, hop, harg⟩ := exists_opcodeOf_operandOf h (argField c)
  exact ⟨i, by rw [encode, hop, harg, opField_append_argField]⟩

/-- A word decodes to a command exactly when it is that command's word. -/
theorem decode_eq_ok_iff {c : CommandWord} {i : Instr} : decode c = .ok i ↔ encode i = c := by
  constructor
  · intro hi
    by_cases hop : opField c ∈ opcodes
    · obtain ⟨j, rfl⟩ := exists_encode_eq_of_mem_opcodes hop
      cases (decode_encode j).symm.trans hi
      rfl
    · cases (decode_of_not_mem_opcodes hop).symm.trans hi
  · rintro rfl
    exact decode_encode i

/-- Settles O1: both directions are those of one equivalence. -/
theorem encodingAndDecodingAgree : Obligations.EncodingAndDecodingAgree :=
  ⟨decode_encode, fun _ _ => decode_eq_ok_iff.1⟩

/-- Settles O2: a word with an opcode of the map is some command's word, and then holds that command's
opcode and operand. -/
theorem everyWordIsACommandOrAnIllegalOpcode :
    Obligations.EveryWordIsACommandOrAnIllegalOpcode := by
  intro c
  by_cases hop : opField c ∈ opcodes
  · obtain ⟨i, rfl⟩ := exists_encode_eq_of_mem_opcodes hop
    obtain ⟨hopcode, hoperand⟩ := Laws.encoded_fields i
    exact .inl ⟨hop, i, decode_encode i, hopcode.symm, hoperand.symm⟩
  · exact .inr ⟨hop, decode_of_not_mem_opcodes hop⟩

/-- Settles O4: each legal word is its command's, and `FF` is outside the map. -/
theorem sampleWordsDecode : Obligations.SampleWordsDecode :=
  ⟨decode_eq_ok_iff.2 rfl, decode_eq_ok_iff.2 rfl, decode_eq_ok_iff.2 rfl, decode_eq_ok_iff.2 rfl,
    decode_eq_ok_iff.2 rfl, decode_eq_ok_iff.2 rfl, decode_of_not_mem_opcodes (by decide)⟩

/-! ### The operand checks on the number `ARG` (R85 to R89) -/

/-- The checks compare bit fields with 0; the rules compare numbers. -/
theorem eq_zero_iff_toNat {n : Nat} {x : BitVec n} : x = 0 ↔ x.toNat = 0 := by
  simp [BitVec.toNat_eq]

/-- Concatenation as a number: the high part weighs `2 ^ n`. -/
theorem toNat_append_eq_add {m n : Nat} (a : BitVec m) (b : BitVec n) :
    (a ++ b).toNat = a.toNat * 2 ^ n + b.toNat := by
  rw [BitVec.toNat_append, ← Nat.shiftLeft_add_eq_or_of_lt b.isLt, Nat.shiftLeft_eq]

/-- Format Z on the number `ARG` (R85). -/
theorem formatZOk_iff_toNat (arg : DWord) : Machine.formatZOk arg = true ↔ arg.toNat = 0 :=
  (Machine.formatZOk_iff arg).trans eq_zero_iff_toNat

/-- Format R on the number `ARG` (R87). -/
theorem formatROk_iff_toNat (rsv : BitVec 56) (rn : BitVec 8) :
    Machine.formatROk rsv rn = true ↔
      (rsv ++ rn).toNat / 2 ^ 8 = 0 ∧ (rsv ++ rn).toNat % 2 ^ 8 ≤ 10 := by
  have hrn := rn.isLt
  rw [Machine.formatROk_iff, toNat_append_eq_add, eq_zero_iff_toNat]
  omega

/-- Format B on the number `ARG` (R88). -/
theorem formatBOk_iff_toNat (idx : BitVec 32) (d : Digest) (rsv : BitVec 8) :
    Machine.formatBOk d rsv = true ↔
      (idx ++ (d ++ rsv)).toNat % 2 ^ 8 = 0 ∧ (idx ++ (d ++ rsv)).toNat / 2 ^ 8 % 2 ^ 24 ≠ 0 := by
  have hd := d.isLt
  have hrsv := rsv.isLt
  rw [Machine.formatBOk_iff, ne_eq, eq_zero_iff_toNat, eq_zero_iff_toNat, toNat_append_eq_add,
    toNat_append_eq_add]
  omega

/-- Format M on the number `ARG` (R89). -/
theorem formatMOk_iff_toNat (idx : BitVec 32) (rsv : BitVec 28) (wn : BitVec 4) :
    Machine.formatMOk rsv = true ↔ (idx ++ (rsv ++ wn)).toNat / 2 ^ 4 % 2 ^ 28 = 0 := by
  have hrsv := rsv.isLt
  have hwn := wn.isLt
  rw [Machine.formatMOk_iff, eq_zero_iff_toNat, toNat_append_eq_add, toNat_append_eq_add]
  omega

/-- The operand check of a command, as a condition on the number its operand is. -/
theorem wf_iff_operandOf (i : Instr) :
    let op := (opcodeOf i).toNat
    let arg := (operandOf i).toNat
    i.wf = true ↔
      if op = 0x02 ∨ op = 0x03 then arg = 0
      else if op = 0x04 then arg / 2 ^ 8 = 0 ∧ arg % 2 ^ 8 ≤ 10
      else if op = 0x30 ∨ op = 0x31 then arg % 2 ^ 8 = 0 ∧ arg / 2 ^ 8 % 2 ^ 24 ≠ 0
      else if op = 0x32 then arg / 2 ^ 4 % 2 ^ 28 = 0
      else True := by
  cases i with
  | create | check | set | delete | deriv1 | deriv2 => exact iff_of_true rfl trivial
  | destroy arg | flush arg => exact formatZOk_iff_toNat arg
  | rdreg rsv rn => exact formatROk_iff_toNat rsv rn
  | blkup idx d rsv | blkupc idx d rsv => exact formatBOk_iff_toNat idx d rsv
  | rdw idx rsv wn => exact formatMOk_iff_toNat idx rsv wn

/-- Settles O3: the operand of a decoded command is the word's own. -/
theorem operandChecksReadTheirBits : Obligations.OperandChecksReadTheirBits := by
  intro c i hi
  obtain ⟨hop, harg⟩ := Laws.encoded_fields i
  rw [← decode_eq_ok_iff.1 hi, hop, harg]
  exact wf_iff_operandOf i

end Sys2Proof
end

section
/-! PROOFS. The response word (`30_encoding.md` R73), the refusal of an illegal opcode (R84), and the
values of the derivation commands as operands of `BLKUP` (R81). -/

namespace Sys2Proof.Machine

/-- Settles O5: the word is the three fields side by side, the code highest. -/
theorem responseWordHoldsItsFields : Obligations.ResponseWordHoldsItsFields := by
  intro r
  refine ⟨?_, ?_, extract_append_low _ _⟩
  · rw [responseWord, BitVec.extractLsb'_append_eq_of_le (by decide)]
    exact extract_append_high _ _
  · rw [responseWord, BitVec.getLsbD_append, if_neg (by decide), BitVec.getLsbD_append,
      if_pos (by decide)]
    simp

/-- An issued command word is run on the state without it (R263). -/
theorem step_of_issue {s : State} {c : CommandWord} {rest : List HostAction}
    (h : s.inputs = .issue c :: rest) : step s = runCommand c { s with inputs := rest } := by
  rw [step, acceptAction, h]

/-- Settles O7: the word does not decode, and the refusal is the whole step. -/
theorem stepRefusesIllegalOpcodes : Obligations.StepRefusesIllegalOpcodes := by
  intro s c rest hin hop
  rw [step_of_issue hin, runCommand, decode_of_not_mem_opcodes hop]
  rfl

/-- `BLKUP` of a nonzero digest in a bucket of the table answers whether it is there (R126). -/
theorem exec_blkup_of_ready {s : State} (hs : TableReady s) {idx : BitVec 32}
    (hidx : idx.toNat < tableBuckets s.ibits) {d : Digest} (hd : d ≠ 0) :
    exec (.blkup idx d 0) s = .next (respond (lookup s.mem idx.toNat d).1 0
      (setMem s (lookup s.mem idx.toNat d).2)) := by
  rw [exec, execBlkup, (formatBOk_iff d 0).2 ⟨rfl, hd⟩, requireOperand_true,
    requireTable_of_cfg hs.cfg, requireRange_of_lt hidx, requireStore_of_le hs.ibits_le]

/-- An index of the table and a nonzero digest, put together as a derivation command returns them, are
an operand of `BLKUP` (R81). -/
theorem append_digestWord_is_blkup_operand {s : State} (hs : TableReady s) {idx : BitVec 32}
    (hidx : idx.toNat < tableBuckets s.ibits) {d : Digest} (hd : d ≠ 0) :
    ∃ i t found, decode (0x30#8 ++ (idx ++ digestWord d) : CommandWord) = .ok i ∧ i.wf = true ∧
      exec i s = .next t ∧ t.rsp = some ⟨.ok, found, 0⟩ :=
  ⟨.blkup idx d 0, _, _, decode_encode (.blkup idx d 0), (formatBOk_iff d 0).2 ⟨rfl, hd⟩,
    exec_blkup_of_ready hs hidx hd, rfl⟩

/-- Settles O33: both candidates lie in the table and both digests are nonzero. -/
theorem derivedValueIsABlkupOperand : Obligations.DerivedValueIsABlkupOperand := by
  intro h s hs v hv
  obtain ⟨-, -, -, hsentinel, -, -, -, hmax⟩ := hs.legal
  have hib : s.ibits ≤ 31 := hs.ibits_le.trans hmax
  simp only [List.mem_cons, List.not_mem_nil, or_false] at hv
  rcases hv with rfl | rfl
  · exact append_digestWord_is_blkup_operand hs (derive_index1_lt _ h hib)
      (digestBits_ne_zero _ _ hsentinel)
  · exact append_digestWord_is_blkup_operand hs (derive_index2_lt _ h hib)
      (digestBits_ne_zero _ _ hsentinel)

end Sys2Proof.Machine
end

section
/-! PROOFS. The candidates of a hash as numbers, what of the hash the digests depend on, and the
commands that show the candidates (`40_hash_derivation.md` R102 to R104, R108 to R110). -/

namespace Sys2Proof.Machine

/-! ### The candidates as numbers of the hash -/

/-- The low 24 bits of a 64-bit number. -/
theorem low24_toNat (p : DWord) : (p.extractLsb' 0 24).toNat = p.toNat % 2 ^ 24 := by
  rw [BitVec.extractLsb'_toNat, Nat.shiftRight_zero]

/-- A digest as a number, 0 remapped to the sentinel (R104). -/
theorem digestBits_toNat (c : Config) (p : DWord) : (digestBits c p).toNat =
    if p.toNat % 2 ^ 24 = 0 then c.sentinel24.toNat else p.toNat % 2 ^ 24 := by
  rw [← low24_toNat, digestBits, apply_ite BitVec.toNat]
  exact if_congr eq_zero_iff_toNat rfl rfl

/-- The digest of a product, as a number of the hash: `2^24` divides the modulus of the product. -/
theorem digestBits_hashProduct_toNat (c : Config) (h m : DWord) :
    (digestBits c (hashProduct h m)).toNat =
      if h.toNat * m.toNat % 2 ^ 24 = 0 then c.sentinel24.toNat
      else h.toNat * m.toNat % 2 ^ 24 := by
  rw [digestBits_toNat, hashProduct_toNat, Nat.mod_mod_of_dvd _ (pow_dvd_pow 2 (by decide))]

/-- Settles O28: the index bits are a remainder modulo `ISIZE`, and the second index has `ISIZE`
added. -/
theorem indicesLieInOppositeHalves : Obligations.IndicesLieInOppositeHalves := by
  intro c ib h ⟨_, _, _, _, _, _, _, hmax⟩ _ hib
  have hib31 : ib ≤ 31 := hib.trans hmax
  have hmod (p : Nat) : p / 2 ^ c.indexShift % 2 ^ ib < 2 ^ ib := Nat.mod_lt _ (Nat.two_pow_pos ib)
  rw [derive_index1_toNat c h hib31, derive_index2_toNat c h hib31, hashProduct_toNat,
    hashProduct_toNat, Nat.two_mul]
  exact ⟨rfl, rfl, hmod _, Nat.le_add_right _ _, Nat.add_lt_add_left (hmod _) _⟩

/-- Settles O29: the sentinel stands for 0, and is not 0 itself. -/
theorem digestsAreTheLowBitsAndNeverZero : Obligations.DigestsAreTheLowBitsAndNeverZero := by
  intro c ib h ⟨_, _, _, hsentinel, _⟩
  exact ⟨digestBits_hashProduct_toNat c h c.mult1, digestBits_hashProduct_toNat c h c.mult2,
    digestBits_ne_zero c _ hsentinel, digestBits_ne_zero c _ hsentinel⟩

/-! ### The digests and the low 24 bits of the hash -/

/-- Truncation to 24 bits commutes with multiplication. -/
theorem hashProduct_low24 (h m : DWord) :
    (hashProduct h m).extractLsb' 0 24 = h.extractLsb' 0 24 * m.extractLsb' 0 24 := by
  simp only [← BitVec.setWidth_eq_extractLsb' (show 24 ≤ 64 by decide)]
  exact BitVec.setWidth_mul h m (by decide)

/-- The low bits of a product depend on the low bits of the hash alone (R110 a). -/
theorem hashProduct_low24_congr {h h' : DWord} (m : DWord)
    (hlow : h.extractLsb' 0 24 = h'.extractLsb' 0 24) :
    (hashProduct h m).extractLsb' 0 24 = (hashProduct h' m).extractLsb' 0 24 := by
  rw [hashProduct_low24, hashProduct_low24, hlow]

/-- The low bits of a product by an odd multiplier determine the low bits of the hash: multiplication
by the inverse of the multiplier gives the hash back (R110 b). -/
theorem hashProduct_low24_inj {h h' m : DWord} (hm : m.toNat % 2 = 1)
    (hlow : (hashProduct h m).extractLsb' 0 24 = (hashProduct h' m).extractLsb' 0 24) :
    h.extractLsb' 0 24 = h'.extractLsb' 0 24 := by
  obtain ⟨n, hn⟩ := exists_mul_eq_one_of_odd hm
  have hback (x : DWord) : hashProduct (hashProduct x m) n = x := by
    rw [hashProduct, hashProduct, BitVec.mul_assoc, hn, mul_one]
  have hundone := hashProduct_low24_congr n hlow
  rwa [hback, hback] at hundone

/-- Products alike in their low 24 bits have the same digest (R104). -/
theorem digestBits_congr (c : Config) {p q : DWord}
    (hlow : p.extractLsb' 0 24 = q.extractLsb' 0 24) : digestBits c p = digestBits c q := by
  rw [digestBits, digestBits, hlow]

/-- Settles O30: the low bits of the hash and of its first product determine one another, and the low
bits of the hash determine those of the second. -/
theorem digestsDependOnTheLow24BitsOnly : Obligations.DigestsDependOnTheLow24BitsOnly := by
  intro c ib h h' ⟨hodd, _⟩
  refine ⟨fun hlow => ⟨?_, ?_⟩, ⟨hashProduct_low24_inj hodd, hashProduct_low24_congr c.mult1⟩,
    fun hp1 => hashProduct_low24_congr c.mult2 (hashProduct_low24_inj hodd hp1)⟩
  · exact digestBits_congr c (hashProduct_low24_congr c.mult1 hlow)
  · exact digestBits_congr c (hashProduct_low24_congr c.mult2 hlow)

/-! ### The commands `DERIV1` and `DERIV2` -/

/-- The value of a derivation command as a number: the index in bits 63:32, the digest in bits 31:8
(R108, R109). -/
theorem append_digestWord_eq_ofNat (idx : BitVec 32) (d : Digest) :
    idx ++ digestWord d = BitVec.ofNat 64 (idx.toNat * 2 ^ 32 + d.toNat * 2 ^ 8) := by
  have hvalue : (idx ++ digestWord d).toNat = idx.toNat * 2 ^ 32 + d.toNat * 2 ^ 8 := by
    rw [digestWord, toNat_append_eq_add, toNat_append_eq_add,
      show (0 : Byte).toNat = 0 from rfl]
    omega
  rw [← hvalue, BitVec.ofNat_toNat, BitVec.setWidth_eq]

/-- `DERIV1` with a table answers the first candidate (R108). -/
theorem exec_deriv1_of_cfg {s : State} (hc : s.cfg = true) (h : DWord) :
    exec (.deriv1 h) s = .next (respond false ((derive s.config s.ibits h).index1 ++
      digestWord (derive s.config s.ibits h).digest1) s) :=
  requireTable_of_cfg hc _

/-- `DERIV2` with a table answers the second candidate (R109). -/
theorem exec_deriv2_of_cfg {s : State} (hc : s.cfg = true) (h : DWord) :
    exec (.deriv2 h) s = .next (respond false ((derive s.config s.ibits h).index2 ++
      digestWord (derive s.config s.ibits h).digest2) s) :=
  requireTable_of_cfg hc _

/-- Settles O32: with a table either command answers its candidate, and the parts of the candidate are
the rules' numbers. -/
theorem derivCommandsShowTheCandidates : Obligations.DerivCommandsShowTheCandidates := by
  intro h s hs
  obtain ⟨-, -, -, -, -, -, -, hmax⟩ := hs.legal
  have hib : s.ibits ≤ 31 := hs.ibits_le.trans hmax
  constructor
  · rw [exec_deriv1_of_cfg hs.cfg, append_digestWord_eq_ofNat, derive_index1_toNat _ h hib, derive,
      digestBits_toNat, hashProduct_toNat]
    rfl
  · rw [exec_deriv2_of_cfg hs.cfg, append_digestWord_eq_ofNat, derive_index2_toNat _ h hib, derive,
      digestBits_toNat, hashProduct_toNat]
    rfl

end Sys2Proof.Machine
end

section
/-! PROOFS. The bucket codec and the commands on one bucket: where the bits of a logical bucket lie, its
one-to-one correspondence with sixteen words, and what `BLKUP`, `BLKUPC` and `RDW` answer
(`41_bucket_codec.md` R115 to R119, R126 to R128). -/

namespace Sys2Proof.Machine

/-! ### The codec -/

/-- Any words can stand in the store: those of an unwritten store, replaced one by one. -/
theorem exists_mem_of_words (w : Nat → Word) (n : Nat) :
    ∃ m, Memory.wf m = true ∧ ∀ i < n, memRead m i = w i := by
  induction n with
  | zero => exact ⟨[], Memory.wf_nil, by simp⟩
  | succ n ih =>
    obtain ⟨m, hwf, hw⟩ := ih
    refine ⟨memWrite m n (w n), memWrite_wf _ _ hwf, fun i hi => ?_⟩
    rw [memRead_memWrite _ _ _ hwf]
    split
    case isTrue heq => rw [heq]
    case isFalse hne => exact hw i (by omega)

/-- Every sixteen words are the encoding of a logical bucket: the one they decode to where they stand
in a store. -/
theorem exists_bucketWord_eq (w : Nat → Word) :
    ∃ lb : LogicalBucket, lb.slots.length = 21 ∧ ∀ i < 16, bucketWord lb i = w i := by
  obtain ⟨m, -, hw⟩ := exists_mem_of_words w 16
  refine ⟨decodeBucket m 0, decodeBucket_length m 0, fun i hi => ?_⟩
  rw [bucketWord_decodeBucket m 0 hi, wordAddr, Nat.mul_zero, Nat.zero_add, hw i hi]

/-- `Encode` writes nothing but the sixteen words (R119). -/
theorem encodeBucket_congr {lb lb' : LogicalBucket} (m : Memory) (b : Nat)
    (h : ∀ i < 16, bucketWord lb i = bucketWord lb' i) :
    encodeBucket m b lb = encodeBucket m b lb' := by
  rw [encodeBucket_eq, encodeBucket_eq]
  refine List.foldl_ext _ _ _ fun m' i hi => ?_
  rw [h i (List.mem_range.1 hi)]

/-- Logical buckets with the same sixteen words are the same: both are what `Decode` gives back after
`Encode` (R120). -/
theorem eq_of_bucketWord_eq {lb lb' : LogicalBucket} (hl : lb.slots.length = 21)
    (hl' : lb'.slots.length = 21) (h : ∀ i < 16, bucketWord lb i = bucketWord lb' i) : lb = lb' :=
  calc lb = decodeBucket (encodeBucket [] 0 lb) 0 :=
        (decodeBucket_encodeBucket 0 Memory.wf_nil hl).symm
    _ = decodeBucket (encodeBucket [] 0 lb') 0 := by rw [encodeBucket_congr [] 0 h]
    _ = lb' := decodeBucket_encodeBucket 0 Memory.wf_nil hl'

/-- Settles O20: the logical bucket the words decode to has them as its words, and no other has. -/
theorem codecIsABijection : Obligations.CodecIsABijection := by
  intro w
  obtain ⟨lb, hl, hw⟩ := exists_bucketWord_eq w
  exact ⟨lb, hl, hw, fun lb' hl' hw' =>
    eq_of_bucketWord_eq hl' hl fun i hi => (hw' i hi).trans (hw i hi).symm⟩

/-- Settles O19, by the places `Decode` takes the direct slots, the extended slots and the stamp from. -/
theorem decodeReadsTheLayout : Obligations.DecodeReadsTheLayout := fun m b =>
  ⟨slotsOf_length m b, fun _ hi => slotsOf_direct m b hi, fun _ hj => slotsOf_extended m b hj,
    (stampOf_eq m b).symm, rfl⟩

/-! ### The commands on one bucket -/

/-- `BLKUPC` of a nonzero digest in a bucket of the table answers as `BLKUP` does, and with the number
of empty slots (R127). -/
theorem exec_blkupc_of_ready {s : State} (hs : TableReady s) {idx : BitVec 32}
    (hidx : idx.toNat < tableBuckets s.ibits) {d : Digest} (hd : d ≠ 0) :
    exec (.blkupc idx d 0) s = .next (respond (lookup s.mem idx.toNat d).1
      (BitVec.ofNat 64 (emptyCount (slotsOf s.mem idx.toNat)))
      (setMem s (lookup s.mem idx.toNat d).2)) := by
  rw [exec, execBlkupc, (formatBOk_iff d 0).2 ⟨rfl, hd⟩, requireOperand_true,
    requireTable_of_cfg hs.cfg, requireRange_of_lt hidx, requireStore_of_le hs.ibits_le,
    lookupCountingEmpty_eq]

/-- Settles O34: both commands leave the store of one lookup, which moves a digest it finds to the
front and else changes nothing. -/
theorem bucketLookupsPromoteOnAHit : Obligations.BucketLookupsPromoteOnAHit := by
  intro idx d s hs hd hidx
  refine ⟨(lookup s.mem idx.toNat d).2, ?_, ?_, lookup_wf _ _ hs.mem_wf,
    fun hmem => (lookup_moved hs.mem_wf hmem).2, fun hmem => by rw [lookup_missed hmem]⟩
  · rw [exec_blkup_of_ready hs hidx hd, lookup_fst_eq_decide]
    rfl
  · rw [exec_blkupc_of_ready hs hidx hd, lookup_fst_eq_decide]
    rfl

/-- `RDW` of a bucket of the table answers the word, zero-extended (R128). -/
theorem exec_rdw_of_ready {s : State} (hs : TableReady s) {idx : BitVec 32}
    (hidx : idx.toNat < tableBuckets s.ibits) (wn : BitVec 4) :
    exec (.rdw idx 0 wn) s = .next (respond false
      ((memRead s.mem (wordAddr idx.toNat wn.toNat)).setWidth 64) s) := by
  rw [exec, execRdw, (formatMOk_iff 0).2 rfl, requireOperand_true, requireTable_of_cfg hs.cfg,
    requireRange_of_lt hidx, requireStore_of_le hs.ibits_le]

/-- Settles O35: every check of `RDW` passes, and the answer is all it writes. -/
theorem rdwReadsOneWord : Obligations.RdwReadsOneWord := fun _ wn _ hs hidx =>
  exec_rdw_of_ready hs hidx wn

end Sys2Proof.Machine
end

section
/-! PROOFS. The slot rotator: the sixteen words of a bucket after a promotion, what a promotion keeps
of the slots, and what an insertion at the front loses (`42_lru_reordering.md` R140 to R145). -/

namespace Sys2Proof.Machine

/-! ### The parts of a bucket word as parts of the logical bucket -/

section
variable (m : Memory) (b : Nat) {i : Nat}

/-- The high part of a word is a direct slot (R117). -/
theorem highPart_memRead (hi : i < 16) :
    highPart (memRead m (wordAddr b i)) = (slotsOf m b).getD i 0 := (slotsOf_direct m b hi).symm

/-- The low byte of a word before the last is a byte of an extended slot (R118, R119). -/
theorem lowPart_memRead (hi : i < 15) : lowPart (memRead m (wordAddr b i)) =
    slotByte ((slotsOf m b).getD (16 + i / 3) 0) (i % 3) := by
  rw [← bucketWord_decodeBucket m b (show i < 16 by omega), bucketWord, if_pos hi]
  exact lowByte_append _ _

end

/-! ### The words of a bucket after a promotion -/

section
variable {m : Memory} {b k i : Nat} (h : Memory.wf m = true) (hk : k ≤ 20)
include h hk

/-- A slot after a promotion (R140). -/
theorem slotsOf_promote_getD (b i : Nat) : (slotsOf (promote m b k) b).getD i 0 =
    if i = 0 then (slotsOf m b).getD k 0
    else if i ≤ k then (slotsOf m b).getD (i - 1) 0 else (slotsOf m b).getD i 0 := by
  rw [slotsOf_promote h hk, shiftBack_getD _ (slotsOf_length m b) hk]

/-- The high part of word 0 takes the promoted slot, wherever it stood. -/
theorem highPart_promote_zero :
    highPart (memRead (promote m b k) (wordAddr b 0)) = (slotsOf m b).getD k 0 := by
  rw [highPart_memRead _ _ (by decide), slotsOf_promote_getD h hk, if_pos rfl]

/-- The high parts of words 1 to `k` come from one word before. -/
theorem highPart_promote_moved (hi0 : i ≠ 0) (hi : i < 16) (hik : i ≤ k) :
    highPart (memRead (promote m b k) (wordAddr b i)) =
      highPart (memRead m (wordAddr b (i - 1))) := by
  rw [highPart_memRead _ _ hi, slotsOf_promote_getD h hk, if_neg hi0, if_pos hik,
    highPart_memRead m b (by omega)]

/-- The high parts of the words after word `k` stay. -/
theorem highPart_promote_kept (hi : i < 16) (hki : k < i) :
    highPart (memRead (promote m b k) (wordAddr b i)) = highPart (memRead m (wordAddr b i)) := by
  rw [highPart_memRead _ _ hi, slotsOf_promote_getD h hk, if_neg (by omega), if_neg (by omega),
    highPart_memRead m b hi]

/-- The low bytes of an extended slot that moves become bytes of the slot before it. -/
theorem lowPart_promote_moved (hik : 16 + i / 3 ≤ k) (hi : i < 15) :
    lowPart (memRead (promote m b k) (wordAddr b i)) =
      slotByte ((slotsOf m b).getD (15 + i / 3) 0) (i % 3) := by
  rw [lowPart_memRead _ _ hi, slotsOf_promote_getD h hk, if_neg (by omega), if_pos hik]
  congr 2
  omega

/-- The low bytes of an extended slot after slot `k` stay, and so does the stamp in word 15. -/
theorem lowPart_promote_kept (hki : k < 16 + i / 3) (hi : i < 16) :
    lowPart (memRead (promote m b k) (wordAddr b i)) = lowPart (memRead m (wordAddr b i)) := by
  by_cases h15 : i < 15
  · rw [lowPart_memRead _ _ h15, slotsOf_promote_getD h hk, if_neg (by omega), if_neg (by omega),
      lowPart_memRead m b h15]
  · obtain rfl : i = 15 := by omega
    exact stampOf_promote h hk

end

/-- Two words with the same parts are the same. -/
theorem eq_append_of_parts {w : Word} {d : Digest} {x : Byte} (hd : highPart w = d)
    (hx : lowPart w = x) : w = d ++ x := by
  rw [← hd, ← hx]
  exact (parts_append w).symm

/-- Settles O22: no low byte changes, and the high parts are those of a rotation of words 0 to `k`. -/
theorem promotionInTheDirectRegionByWords : Obligations.PromotionInTheDirectRegionByWords := by
  intro m b k h hk i hi
  have hk20 : k ≤ 20 := by omega
  have hlow := lowPart_promote_kept (b := b) h hk20 (show k < 16 + i / 3 by omega) hi
  unfold promoteDirectWord
  split
  case isTrue hi0 =>
    subst hi0
    refine eq_append_of_parts ?_ hlow
    rw [highPart_promote_zero h hk20, highPart_memRead m b (by omega)]
  case isFalse hi0 =>
    split
    case isTrue hik => exact eq_append_of_parts (highPart_promote_moved h hk20 hi0 hi hik) hlow
    case isFalse hik =>
      exact (eq_append_of_parts (highPart_promote_kept h hk20 hi (by omega)) hlow).trans
        (parts_append _)

/-- The low bytes after a promotion from the extended region: direct slot 15 crosses into extended
slot 0, extended slots before `j` move one on, the others and the stamp stay (R142). -/
theorem lowPart_promote_extended {m : Memory} {j i : Nat} (b : Nat) (h : Memory.wf m = true)
    (hj : j ≤ 4) (hi : i < 16) : lowPart (memRead (promote m b (16 + j)) (wordAddr b i)) =
      promoteExtendedLow (fun x => memRead m (wordAddr b x)) j i := by
  have hk : 16 + j ≤ 20 := by omega
  unfold promoteExtendedLow
  split
  case isTrue hi3 =>
    rw [lowPart_promote_moved h hk (by omega) (by omega), highPart_memRead m b (by decide),
      Nat.div_eq_of_lt hi3, Nat.mod_eq_of_lt hi3]
  case isFalse hi3 =>
    split
    case isTrue hij =>
      rw [lowPart_promote_moved h hk (by omega) (by omega), lowPart_memRead m b (by omega),
        show 16 + (i - 3) / 3 = 15 + i / 3 by omega, show (i - 3) % 3 = i % 3 by omega]
    case isFalse hij => exact lowPart_promote_kept h hk (by omega) hi

/-- Settles O23: every high part moves down one word, the extended slot `j` crosses into word 0, and
the low bytes are those of `lowPart_promote_extended`. -/
theorem promotionInTheExtendedRegionByWords :
    Obligations.PromotionInTheExtendedRegionByWords := by
  intro m b j h hj i hi
  have hk : 16 + j ≤ 20 := by omega
  refine eq_append_of_parts ?_ (lowPart_promote_extended b h hj hi)
  split
  case isTrue hi0 =>
    subst hi0
    rw [highPart_promote_zero h hk, slotsOf_extended m b (by omega)]
    rfl
  case isFalse hi0 => exact highPart_promote_moved h hk hi0 hi (by omega)

/-! ### What a promotion keeps of the slots -/

/-- Behind the promoted slot stand the others in their order (R145 item 2). -/
theorem shiftBack_eraseIdx_zero (l : List Digest) (k : Nat) (v : Digest) :
    (shiftBack l k v).eraseIdx 0 = l.eraseIdx k := by
  rw [shiftBack, List.eraseIdx_cons_zero, List.eraseIdx_eq_take_drop_succ]

/-- Settles O25: the slots are rotated, which permutes them; the stamp and the other buckets stay. -/
theorem promotionPermutesTheSlots : Obligations.PromotionPermutesTheSlots := by
  intro m b k h hk
  have hl := slotsOf_length m b
  have hperm := shiftBack_perm (slotsOf m b) k (by omega)
  rw [slotsOf_promote h hk]
  exact ⟨hperm, hperm.count_eq 0, rfl, shiftBack_eraseIdx_zero _ _ _,
    noDuplicate_shiftBack_getD hl hk, occupiedPrefix_shiftBack hl hk, stampOf_promote h hk,
    fun _ ha => readByte_promote_outside k ha⟩

/-! ### What an insertion loses -/

/-- An insertion at the front takes one empty slot away when the last slot was empty, and none when it
was occupied (R143). -/
theorem emptyCount_shiftBack_twenty {l : List Digest} (hl : l.length = 21) {d : Digest}
    (hd : d ≠ 0) :
    emptyCount (shiftBack l 20 d) + (if l.getD 20 0 = 0 then 1 else 0) = emptyCount l := by
  have hlast := congrArg (List.count 0) (take_twenty_append l hl)
  rw [List.count_append, List.count_singleton] at hlast
  simpa only [emptyCount, shiftBack_twenty l hl, List.count_cons_of_ne hd, beq_iff_eq] using hlast

/-- Settles O26: under the occupied prefix the last slot, the only one lost, is empty exactly while
there is room. -/
theorem insertFrontLosesOnlyTheLastOfAFullBucket :
    Obligations.InsertFrontLosesOnlyTheLastOfAFullBucket := by
  intro m b d h hd hprefix
  have hl := slotsOf_length m b
  have hroom : 0 < emptyCount (slotsOf m b) ↔ (slotsOf m b).getD 20 0 = 0 :=
    occupiedPrefix_last _ hl hprefix
  have hcount := emptyCount_shiftBack_twenty hl hd
  rw [slotsOf_insertFront d h]
  refine ⟨fun hpos => ?_, fun hfull => ?_, shiftBack_twenty _ hl d,
    occupiedPrefix_shiftBack hl le_rfl hd hprefix⟩
  · have hempty := hroom.1 hpos
    rw [if_pos hempty] at hcount
    exact ⟨hempty, hcount⟩
  · have hoccupied : (slotsOf m b).getD 20 0 ≠ 0 := fun h0 => by
      have := hroom.2 h0
      omega
    rw [if_neg hoccupied] at hcount
    exact ⟨hoccupied, hcount.trans hfull⟩

end Sys2Proof.Machine
end

section
/-! PROOFS. `SET`: promotion of a present digest, the destination and the effect of an insertion, the
drop counter and the aging counters (`43_insert_eviction.md` R155 to R166). -/

namespace Sys2Proof.Machine

/-! ### The aging counters (R164) -/

/-- One advance of the aging counters, field by field (R164). -/
theorem advanceAging_eq (s : State) : advanceAging s = { s with
    inscnt := if s.thresh.toNat < (s.inscnt + 1).toNat then 0 else s.inscnt + 1
    epoch := if s.thresh.toNat < (s.inscnt + 1).toNat then s.epoch + 1 else s.epoch } := by
  unfold advanceAging
  split <;> rfl

/-- Counting on from `n` modulo `t + 1`: past `t` the remainder starts again and the quotient rises,
and before it only the remainder rises. -/
theorem succ_mod_div (t n : Nat) :
    (n + 1) % (t + 1) = (if t < n % (t + 1) + 1 then 0 else n % (t + 1) + 1) ∧
      (n + 1) / (t + 1) = (if t < n % (t + 1) + 1 then n / (t + 1) + 1 else n / (t + 1)) := by
  have hpos : 0 < t + 1 := by omega
  have hlt := Nat.mod_lt n hpos
  have hn := Nat.mod_add_div n (t + 1)
  rw [and_comm, Nat.div_mod_unique hpos]
  split
  · rw [Nat.mul_succ]
    omega
  · omega

/-- Settles O44: each advance counts one further, with `INSCNT` the digit modulo `THRESH + 1` and
`EPOCH` the carries. -/
theorem agingFollowsTheInsertionVolume : Obligations.AgingFollowsTheInsertionVolume := by
  intro s n hinscnt hepoch hthresh
  induction n with
  | zero => simp [hinscnt, hepoch]
  | succ n ih =>
    obtain ⟨hcount, hage, hkept⟩ := ih
    obtain ⟨hmod, hdiv⟩ := succ_mod_div s.thresh.toNat n
    have hlt := Nat.mod_lt n s.thresh.toNat.succ_pos
    have hnext : ((advanceAging^[n] s).inscnt + 1).toNat = n % (s.thresh.toNat + 1) + 1 := by
      rw [BitVec.toNat_add, hcount]
      exact Nat.mod_eq_of_lt (lt_of_le_of_lt hlt hthresh)
    rw [Function.iterate_succ_apply', advanceAging_inscnt, advanceAging_epoch, advanceAging_thresh,
      hkept, hnext, hmod, hdiv]
    split_ifs
    · refine ⟨rfl, ?_, rfl⟩
      rw [BitVec.toNat_add, hage, ← Nat.add_assoc]
      exact Nat.mod_add_mod _ _ _
    · exact ⟨hnext, hage, rfl⟩

/-! ### What `SET` answers (R157 to R162) -/

theorem countDrop_eq (drop : Bool) (s : State) :
    countDrop drop s = { s with drops := if drop then s.drops + 1 else s.drops } := by
  cases drop <;> rfl

/-- Settles O38: the lookup that hits promotes the digest, and the answer is all else that changes. -/
theorem setOfAPresentDigestOnlyPromotes : Obligations.SetOfAPresentDigestOnlyPromotes := by
  intro h s hs c b1 b2 hpresent
  by_cases h1 : c.digest1 ∈ slotsOf s.mem b1
  · exact ⟨(lookup s.mem b1 c.digest1).2, execSet_of_mem1 h hs.cfg hs.ibits_le h1,
      lookup_wf _ _ hs.mem_wf, fun _ => (lookup_moved hs.mem_wf h1).2, fun hn => absurd h1 hn⟩
  · have h2 : c.digest2 ∈ slotsOf s.mem b2 := hpresent.resolve_left h1
    exact ⟨(lookup s.mem b2 c.digest2).2, execSet_of_mem2 h hs.cfg hs.ibits_le h1 h2,
      lookup_wf _ _ hs.mem_wf, fun hm => absurd hm h1, fun _ => (lookup_moved hs.mem_wf h2).2⟩

/-- Settles O39: the destination is the arbiter's, and each of the three updates writes its own
fields. -/
theorem setInsertsWhereTheArbiterSays : Obligations.SetInsertsWhereTheArbiterSays := by
  intro h s hs c b1 b2 h1 h2 e1 e2 a1 a2 first
  obtain ⟨dst, hdst, hexec⟩ := execSet_of_not_mem h hs.cfg hs.ibits_le h1 h2
  obtain ⟨hchoice, hdrop⟩ := arbitrate_spec c e1 e2 s.epoch (stampOf s.mem b1) (stampOf s.mem b2)
  change dst = arbitrate c e1 e2 s.epoch (stampOf s.mem b1) (stampOf s.mem b2) at hdst
  rw [← hdst] at hchoice hdrop
  refine ⟨dst.bucket.toNat, dst.digest, _, ?_, setStamp_wf _ _ (insertFront_wf _ _ hs.mem_wf),
    insertFront_setStamp_inserted _ _ _ hs.mem_wf, ?_⟩
  · exact hchoice.imp (fun ⟨hf, hb, hd⟩ => ⟨hf, congrArg _ hb, hd⟩)
      (fun ⟨hf, hb, hd⟩ => ⟨hf, congrArg _ hb, hd⟩)
  · rw [exec, hexec, advanceAging_eq, placeDigest, countDrop_eq]
    simp only [hdrop]
    rfl

/-! ### The outcomes of `SET`, told apart -/

/-- Bucket `b` and digest `d` are a candidate pair of `c`, the second only while the first bucket does
not hold its digest (R105, R157). -/
def CandidatePair (c : Candidates) (m : Memory) (b : Nat) (d : Digest) : Prop :=
  b = c.index1.toNat ∧ d = c.digest1 ∨
    b = c.index2.toNat ∧ d = c.digest2 ∧ c.digest1 ∉ slotsOf m c.index1.toNat

/-- What a `SET` that put digest `d` at the front of bucket `b` did to the slots, the response and
`DROPS` (R157, R161, R162). -/
inductive SetEffect (s t : State) (b : Nat) (d : Digest) : Prop
  | promoted (hmem : d ∈ slotsOf s.mem b) (hmoved : MovedToFront s.mem t.mem b d)
      (hrsp : t.rsp = some ⟨.ok, true, 0⟩) (hdrops : t.drops = s.drops)
  | withRoom (hinserted : InsertedAtFront s.mem t.mem b d s.epoch)
      (hroom : emptyCount (slotsOf s.mem b) ≠ 0)
      (hrsp : t.rsp = some ⟨.ok, false, 0⟩) (hdrops : t.drops = s.drops)
  | withDrop (hinserted : InsertedAtFront s.mem t.mem b d s.epoch)
      (hfull : emptyCount (slotsOf s.mem b) = 0)
      (hrsp : t.rsp = some ⟨.ok, false, 0⟩) (hdrops : t.drops = s.drops + 1)

/-- What a `SET` with a table did: a candidate pair has its digest at the front of its bucket, and the
table is still there, of the same size. -/
structure SetOutcome (h : DWord) (s t : State) (b : Nat) (d : Digest) : Prop where
  pair : CandidatePair (derive s.config s.ibits h) s.mem b d
  effect : SetEffect s t b d
  ready : TableReady t
  config : t.config = s.config
  ibits : t.ibits = s.ibits

/-- The arbiter prefers the bucket with more empty slots, so it chooses a full one only when both are
full (R158, R159). -/
theorem chosen_full_iff {e1 e2 e : Nat} {staler : Prop}
    (h : (e2 < e1 ∨ (e1 = e2 ∧ 0 < e1) ∨ (e1 = 0 ∧ e2 = 0 ∧ staler)) ∧ e = e1 ∨
      ¬(e2 < e1 ∨ (e1 = e2 ∧ 0 < e1) ∨ (e1 = 0 ∧ e2 = 0 ∧ staler)) ∧ e = e2) :
    e = 0 ↔ e1 = 0 ∧ e2 = 0 := by
  by_cases hs : staler <;> simp only [hs, and_true, and_false, or_false] at h <;> omega

/-- Every `SET` with a table has one of the outcomes (R157, R166). -/
theorem exec_set_outcome {h : DWord} {s t : State} (hs : TableReady s)
    (hexec : exec (.set h) s = .next t) : ∃ b d, SetOutcome h s t b d := by
  let c := derive s.config s.ibits h
  by_cases hpresent : c.digest1 ∈ slotsOf s.mem c.index1.toNat ∨
      c.digest2 ∈ slotsOf s.mem c.index2.toNat
  · obtain ⟨m, he, hwf, hfirst, hsecond⟩ := setOfAPresentDigestOnlyPromotes h s hs hpresent
    obtain rfl := Host.Outcome.next.inj (he.symm.trans hexec)
    have hready : TableReady { s with mem := m, rsp := some ⟨.ok, true, 0⟩ } :=
      { hs with mem_wf := hwf }
    by_cases h1 : c.digest1 ∈ slotsOf s.mem c.index1.toNat
    · exact ⟨_, _, .inl ⟨rfl, rfl⟩, .promoted h1 (hfirst h1) rfl rfl, hready, rfl, rfl⟩
    · exact ⟨_, _, .inr ⟨rfl, rfl, h1⟩, .promoted (hpresent.resolve_left h1) (hsecond h1) rfl rfl,
        hready, rfl, rfl⟩
  · obtain ⟨h1, h2⟩ := not_or.1 hpresent
    obtain ⟨b, d, m, hchoice, hwf, hinserted, he⟩ := setInsertsWhereTheArbiterSays h s hs h1 h2
    obtain rfl := Host.Outcome.next.inj (he.symm.trans hexec)
    refine ⟨b, d, hchoice.imp And.right fun ⟨_, hb, hd⟩ => ⟨hb, hd, h1⟩, ?_,
      { hs with mem_wf := hwf }, rfl, rfl⟩
    have hfull : emptyCount (slotsOf s.mem b) = 0 ↔
        emptyCount (slotsOf s.mem c.index1.toNat) = 0 ∧
          emptyCount (slotsOf s.mem c.index2.toNat) = 0 :=
      chosen_full_iff (hchoice.imp (fun ⟨hf, hb, _⟩ => ⟨hf, by rw [hb]⟩)
        fun ⟨hf, hb, _⟩ => ⟨hf, by rw [hb]⟩)
    by_cases hboth : emptyCount (slotsOf s.mem c.index1.toNat) = 0 ∧
        emptyCount (slotsOf s.mem c.index2.toNat) = 0
    · exact .withDrop hinserted (hfull.2 hboth) rfl (if_pos hboth)
    · exact .withRoom hinserted (mt hfull.1 hboth) rfl (if_neg hboth)

section
variable {h : DWord} {s t : State} {b : Nat} {d : Digest}

/-- The chosen bucket lies in the table and the digest is nonzero (R102 to R104). -/
theorem CandidatePair.valid {c : Config} {ib : Nat} {m : Memory} (hlegal : c.Legal)
    (hib : ib ≤ c.ibitsMax) (hp : CandidatePair (derive c ib h) m b d) :
    b < tableBuckets ib ∧ d ≠ 0 := by
  obtain ⟨h1, h2⟩ := derive_indices_lt hlegal hib h
  obtain ⟨-, -, -, hsentinel, -⟩ := hlegal
  rcases hp with ⟨rfl, rfl⟩ | ⟨rfl, rfl, -⟩
  · exact ⟨h1, digestBits_ne_zero _ _ hsentinel⟩
  · exact ⟨h2, digestBits_ne_zero _ _ hsentinel⟩

/-- The two candidate buckets lie in opposite halves, so what is done to the second leaves the first
(R102, R103). -/
theorem CandidatePair.of_outside {c : Config} {ib : Nat} {m m' : Memory} (hlegal : c.Legal)
    (hpos : 1 ≤ ib) (hib : ib ≤ c.ibitsMax) (hp : CandidatePair (derive c ib h) m b d)
    (hout : OutsideBucketUnchanged m m' b) : CandidatePair (derive c ib h) m' b d := by
  obtain ⟨-, -, hlt, hle, -⟩ := indicesLieInOppositeHalves c ib h hlegal hpos hib
  refine hp.imp_right fun ⟨hb, hd, hnot⟩ => ⟨hb, hd, ?_⟩
  rwa [slotsOf_of_outside hout (by omega)]

/-- The digest is at the front of the bucket afterwards, and no other bucket changed. -/
theorem SetEffect.front (he : SetEffect s t b d) :
    (∃ l, slotsOf t.mem b = d :: l) ∧ OutsideBucketUnchanged s.mem t.mem b := by
  cases he with
  | promoted _ hmoved => exact ⟨⟨_, hmoved.slots⟩, hmoved.outside⟩
  | withRoom hinserted | withDrop hinserted => exact ⟨⟨_, hinserted.slots⟩, hinserted.outside⟩

/-- A `SET` of a digest that is already at the front of its bucket changes nothing but the
response. -/
theorem exec_set_of_front (hs : TableReady s)
    (hp : CandidatePair (derive s.config s.ibits h) s.mem b d) {l : List Digest}
    (hfront : slotsOf s.mem b = d :: l) :
    exec (.set h) s = .next { s with rsp := some ⟨.ok, true, 0⟩ } := by
  have hmem : d ∈ slotsOf s.mem b := hfront ▸ List.mem_cons_self
  have hlookup := lookup_front hs.mem_wf hfront
  rcases hp with ⟨rfl, rfl⟩ | ⟨rfl, rfl, hnot⟩
  · rw [exec, execSet_of_mem1 h hs.cfg hs.ibits_le hmem, hlookup]
    rfl
  · rw [exec, execSet_of_mem2 h hs.cfg hs.ibits_le hnot hmem, hlookup]
    rfl

end

/-- Settles O41: the first `SET` leaves the digest at the front of its bucket. -/
theorem secondSetChangesNothing : Obligations.SecondSetChangesNothing := by
  intro h s t hs hexec
  obtain ⟨b, d, hout⟩ := exec_set_outcome hs hexec
  obtain ⟨⟨l, hfront⟩, houtside⟩ := hout.effect.front
  have hpair := hout.pair.of_outside hs.legal hs.ibits_pos hs.ibits_le houtside
  rw [← hout.config, ← hout.ibits] at hpair
  exact exec_set_of_front hout.ready hpair hfront

/-! ### What is stored and what is lost (R163) -/

theorem StateInv.tableReady {s : State} (h : StateInv s) (hc : s.cfg = true) : TableReady s :=
  ⟨hc, h.legal, (h.table hc).ibits_pos, (h.table hc).ibits_le, h.mem_wf⟩

section
variable {m m' : Memory} {b b' : Nat} {d : Digest} {v : Byte}

/-- Moving a digest to the front permutes the slots of every bucket (R140). -/
theorem MovedToFront.perm (h : MovedToFront m m' b d) (hmem : d ∈ slotsOf m b) (b' : Nat) :
    (slotsOf m' b').Perm (slotsOf m b') := by
  by_cases hb : b' = b
  · rw [hb, h.slots]
    exact (List.perm_cons_erase hmem).symm
  · rw [slotsOf_of_outside h.outside hb]

/-- A lookup permutes the slots of every bucket (R123). -/
theorem lookup_perm (hwf : Memory.wf m = true) (b b' : Nat) (d : Digest) :
    (slotsOf (lookup m b d).2 b').Perm (slotsOf m b') := by
  by_cases hmem : d ∈ slotsOf m b
  · exact (lookup_moved hwf hmem).2.perm hmem b'
  · rw [lookup_missed hmem]

/-- An insertion takes one empty slot, if there is one (R143). -/
theorem InsertedAtFront.emptyCount_eq (h : InsertedAtFront m m' b d v) (hd : d ≠ 0)
    (hprefix : OccupiedPrefix (slotsOf m b)) :
    emptyCount (slotsOf m' b) = emptyCount (slotsOf m b) - 1 := by
  have hl := slotsOf_length m b
  have hcount := emptyCount_shiftBack_twenty hl hd
  have hroom : 0 < emptyCount (slotsOf m b) ↔ (slotsOf m b).getD 20 0 = 0 :=
    occupiedPrefix_last _ hl hprefix
  rw [h.slots, ← shiftBack_twenty _ hl]
  split at hcount
  case isTrue => omega
  case isFalse hlast =>
    have := mt hroom.1 hlast
    omega

/-- An insertion into a bucket with room loses no digest (R145, item 3). -/
theorem InsertedAtFront.mem_of_room (h : InsertedAtFront m m' b d v)
    (hprefix : OccupiedPrefix (slotsOf m b)) (hroom : emptyCount (slotsOf m b) ≠ 0) {x : Digest}
    (hx : x ≠ 0) (hmem : x ∈ slotsOf m b') : x ∈ slotsOf m' b' := by
  by_cases hb : b' = b
  · subst hb
    have hl := slotsOf_length m b'
    have hlast := (occupiedPrefix_last _ hl hprefix).1 (Nat.pos_of_ne_zero hroom)
    rw [← take_twenty_append _ hl, hlast, List.mem_append, List.mem_singleton] at hmem
    rw [h.slots]
    exact List.mem_cons_of_mem d (hmem.resolve_right hx)
  · rwa [slotsOf_of_outside h.outside hb]

/-- The occupied slots of a bucket and the others of the table (R163). -/
theorem occupiedBelow_eq_add {n : Nat} (m : Memory) (hb : b < n) : occupiedBelow m n =
    (21 - emptyCount (slotsOf m b)) +
      ∑ b' ∈ (Finset.range n).erase b, (21 - emptyCount (slotsOf m b')) :=
  (Finset.add_sum_erase (Finset.range n) (fun b' => 21 - emptyCount (slotsOf m b'))
    (Finset.mem_range.2 hb)).symm

/-- When one bucket changes, the occupied slots of the table change by what they do in it. -/
theorem occupiedBelow_add_of_outside {n : Nat} (hout : OutsideBucketUnchanged m m' b) (hb : b < n) :
    occupiedBelow m' n + (21 - emptyCount (slotsOf m b)) =
      occupiedBelow m n + (21 - emptyCount (slotsOf m' b)) := by
  have hrest : ∑ b' ∈ (Finset.range n).erase b, (21 - emptyCount (slotsOf m' b')) =
      ∑ b' ∈ (Finset.range n).erase b, (21 - emptyCount (slotsOf m b')) :=
    Finset.sum_congr rfl fun b' hb' => by
      rw [slotsOf_of_outside hout (Finset.ne_of_mem_erase hb')]
  rw [occupiedBelow_eq_add m hb, occupiedBelow_eq_add m' hb, hrest]
  omega

end

/-- Settles O42: a promotion permutes the slots of its bucket, and an insertion takes an empty slot of
it when there is one. -/
theorem dropsCountTheDiscardedDigests : Obligations.DropsCountTheDiscardedDigests := by
  intro h s t hinv hc hexec
  have hs := hinv.tableReady hc
  obtain ⟨b, d, hout⟩ := exec_set_outcome hs hexec
  obtain ⟨hb, hd⟩ := hout.pair.valid hs.legal hs.ibits_le
  have hprefix := (hinv.table hc).prefix_ok b hb
  have hmost : emptyCount (slotsOf s.mem b) ≤ 21 := slotsOf_length s.mem b ▸ List.count_le_length
  have htotal := occupiedBelow_add_of_outside hout.effect.front.2 hb
  rw [hout.ibits]
  cases hout.effect with
  | promoted hmem hmoved hrsp hdrops =>
    have hsame : emptyCount (slotsOf t.mem b) = emptyCount (slotsOf s.mem b) :=
      (hmoved.perm hmem b).count_eq 0
    exact .inr (.inr ⟨hrsp, hdrops, by omega⟩)
  | withRoom hinserted hroom hrsp hdrops =>
    have hless := hinserted.emptyCount_eq hd hprefix
    exact .inl ⟨hrsp, hdrops, by omega⟩
  | withDrop hinserted hfull hrsp hdrops =>
    have hnone := hinserted.emptyCount_eq hd hprefix
    exact .inr (.inl ⟨hrsp, hdrops, by omega⟩)

/-- Of the commands that a table allows, only `SET`, `FLUSH`, `DESTROY` and `DELETE` do more to a
bucket than permute its slots. -/
theorem Answers.slots_perm {i : Instr} {s t : State} (ha : Answers i s t)
    (hwf : Memory.wf s.mem = true) (hc : s.cfg = true) (hset : ∀ h, i ≠ .set h)
    (hflush : i ≠ .flush 0) (hdestroy : i ≠ .destroy 0) (hdelete : ∀ h, i ≠ .delete h) (b : Nat) :
    (slotsOf t.mem b).Perm (slotsOf s.mem b) := by
  cases ha with
  | refused | rdreg | rdw | deriv1 | deriv2 => exact .rfl
  | create cap _ hnone => exact absurd (hnone.symm.trans hc) Bool.false_ne_true
  | destroy => exact absurd rfl hdestroy
  | flush => exact absurd rfl hflush
  | blkup | blkupc | checkFirst | checkSecond => exact lookup_perm hwf _ b _
  | setFirst h | setSecond h | setInsert h => exact absurd rfl (hset h)
  | deleteFirst h | deleteSecond h | deleteMiss h => exact absurd rfl (hdelete h)

/-- A `SET` that counts no drop keeps every digest in its bucket (R163). -/
theorem SetEffect.keeps_digest {s t : State} {b b' : Nat} {d x : Digest}
    (he : SetEffect s t b d) (hdrops : t.drops = s.drops) (hprefix : OccupiedPrefix (slotsOf s.mem b))
    (hx : x ≠ 0) (hmem : x ∈ slotsOf s.mem b') : x ∈ slotsOf t.mem b' := by
  cases he with
  | promoted hd hmoved => exact (hmoved.perm hd b').mem_iff.2 hmem
  | withRoom hinserted hroom => exact hinserted.mem_of_room hprefix hroom hx hmem
  | withDrop _ _ _ hcounted =>
    rw [hdrops] at hcounted
    exact absurd hcounted (by simp)

/-- Settles O43: a `SET` that counts no drop found room, and the other commands permute. -/
theorem nothingIsForgottenWithoutADrop : Obligations.NothingIsForgottenWithoutADrop := by
  intro i s t hinv hc hexec hdrops hflush hdestroy hdelete b _ x hx hmem
  by_cases hset : ∃ h, i = .set h
  · obtain ⟨h, rfl⟩ := hset
    have hs := hinv.tableReady hc
    obtain ⟨b', d, hout⟩ := exec_set_outcome hs hexec
    have hb' := (hout.pair.valid hs.legal hs.ibits_le).1
    exact hout.effect.keeps_digest hdrops ((hinv.table hc).prefix_ok b' hb') hx hmem
  · have hperm := (exec_answers i s t hexec).slots_perm hinv.mem_wf hc
      (not_exists.1 hset) hflush hdestroy hdelete b
    exact hperm.mem_iff.2 hmem

end Sys2Proof.Machine
end

section
/-! PROOFS. `CHECK` (`44_check.md` R180 to R184): the one bucket a hit touches, the nothing a miss
touches, and what a `CHECK` answers when the command before it was a `CHECK` or a `SET` of the same
hash. -/

namespace Sys2Proof.Machine

/-! ### The two outcomes of `CHECK` -/

section
variable {h : DWord} {s : State} {b : Nat} {d : Digest}

/-- A hit promotes the digest in the candidate bucket that holds it, and touches nothing else
(R180, R181). -/
theorem exec_check_of_hit (hs : TableReady s)
    (hp : CandidatePair (derive s.config s.ibits h) s.mem b d) (hmem : d ∈ slotsOf s.mem b) :
    exec (.check h) s = .next { s with
      mem := (lookup s.mem b d).2, rsp := some ⟨.ok, true, 0⟩ } := by
  have hfound : (lookup s.mem b d).1 = true := (lookup_found_iff _ _ _).2 hmem
  rw [exec, execCheck_of_ready h hs.cfg hs.ibits_le]
  rcases hp with ⟨rfl, rfl⟩ | ⟨rfl, rfl, hnot⟩
  · rw [if_pos hfound]
    rfl
  · rw [if_neg (mt (lookup_found_iff _ _ _).1 hnot), hfound]
    rfl

/-- A miss in both candidate buckets answers 0 and changes nothing else (R182). -/
theorem exec_check_of_miss (hs : TableReady s)
    (h1 : (derive s.config s.ibits h).digest1 ∉
      slotsOf s.mem (derive s.config s.ibits h).index1.toNat)
    (h2 : (derive s.config s.ibits h).digest2 ∉
      slotsOf s.mem (derive s.config s.ibits h).index2.toNat) :
    exec (.check h) s = .next { s with rsp := some ⟨.ok, false, 0⟩ } := by
  rw [exec, execCheck_of_ready h hs.cfg hs.ibits_le, lookup_missed h1, lookup_missed h2]
  rfl

/-- A `CHECK` of a digest that is already at the front of its bucket changes nothing but the
response. -/
theorem exec_check_of_front (hs : TableReady s)
    (hp : CandidatePair (derive s.config s.ibits h) s.mem b d) {l : List Digest}
    (hfront : slotsOf s.mem b = d :: l) :
    exec (.check h) s = .next { s with rsp := some ⟨.ok, true, 0⟩ } := by
  rw [exec_check_of_hit hs hp (hfront ▸ List.mem_cons_self), lookup_front hs.mem_wf hfront]

end

/-- Whether a hash is present: some candidate pair has its digest in its bucket, or neither candidate
bucket holds its digest. -/
theorem candidatePair_hit_or_miss (c : Candidates) (m : Memory) :
    (∃ b d, CandidatePair c m b d ∧ d ∈ slotsOf m b) ∨
      c.digest1 ∉ slotsOf m c.index1.toNat ∧ c.digest2 ∉ slotsOf m c.index2.toNat := by
  by_cases h1 : c.digest1 ∈ slotsOf m c.index1.toNat
  · exact .inl ⟨_, _, .inl ⟨rfl, rfl⟩, h1⟩
  · by_cases h2 : c.digest2 ∈ slotsOf m c.index2.toNat
    · exact .inl ⟨_, _, .inr ⟨rfl, rfl, h1⟩, h2⟩
    · exact .inr ⟨h1, h2⟩

/-- Settles O36: the first candidate bucket hits, or only the second, or neither. -/
theorem checkAnswersMembership : Obligations.CheckAnswersMembership := by
  intro h s hs c b1 b2
  by_cases h1 : c.digest1 ∈ slotsOf s.mem b1
  · refine ⟨_, ?_, lookup_wf b1 c.digest1 hs.mem_wf, fun _ => (lookup_moved hs.mem_wf h1).2,
      fun hn => absurd h1 hn, fun hn => absurd h1 hn⟩
    rw [decide_eq_true (.inl h1)]
    exact exec_check_of_hit hs (.inl ⟨rfl, rfl⟩) h1
  · by_cases h2 : c.digest2 ∈ slotsOf s.mem b2
    · refine ⟨_, ?_, lookup_wf b2 c.digest2 hs.mem_wf, fun hm => absurd hm h1,
        fun _ _ => (lookup_moved hs.mem_wf h2).2, fun _ hn => absurd h2 hn⟩
      rw [decide_eq_true (.inr h2)]
      exact exec_check_of_hit hs (.inr ⟨rfl, rfl, h1⟩) h2
    · refine ⟨s.mem, ?_, hs.mem_wf, fun hm => absurd hm h1, fun _ hm => absurd hm h2,
        fun _ _ => rfl⟩
      rw [decide_eq_false (not_or.2 ⟨h1, h2⟩)]
      exact exec_check_of_miss hs h1 h2

/-! ### `CHECK` right after a command of the same hash -/

/-- Settles O37: after a hit the digest is at the front of its bucket, and after a miss the store is as
it was. -/
theorem repeatedCheckChangesNothing : Obligations.RepeatedCheckChangesNothing := by
  intro h s t hs hexec
  rcases candidatePair_hit_or_miss (derive s.config s.ibits h) s.mem with
    ⟨b, d, hpair, hmem⟩ | ⟨h1, h2⟩
  · obtain rfl := Host.Outcome.next.inj ((exec_check_of_hit hs hpair hmem).symm.trans hexec)
    have hmoved := (lookup_moved hs.mem_wf hmem).2
    have hready : TableReady { s with
        mem := (lookup s.mem b d).2, rsp := some ⟨.ok, true, 0⟩ } :=
      { hs with mem_wf := lookup_wf b d hs.mem_wf }
    exact exec_check_of_front hready
      (hpair.of_outside hs.legal hs.ibits_pos hs.ibits_le hmoved.outside) hmoved.slots
  · obtain rfl := Host.Outcome.next.inj ((exec_check_of_miss hs h1 h2).symm.trans hexec)
    have hready : TableReady { s with rsp := some ⟨.ok, false, 0⟩ } := { hs with }
    exact exec_check_of_miss hready h1 h2

/-- Settles O40: a `SET`, whether it promoted or inserted, leaves the digest at the front of its
bucket. -/
theorem checkAfterSetAlwaysHits : Obligations.CheckAfterSetAlwaysHits := by
  intro h s t hs hexec
  obtain ⟨b, d, hout⟩ := exec_set_outcome hs hexec
  obtain ⟨⟨l, hfront⟩, houtside⟩ := hout.effect.front
  have hpair := hout.pair.of_outside hs.legal hs.ibits_pos hs.ibits_le houtside
  rw [← hout.config, ← hout.ibits] at hpair
  exact ⟨_, exec_check_of_front hout.ready hpair hfront, rfl⟩

end Sys2Proof.Machine
end

section
/-! PROOFS. Compaction and `DELETE` (`45_delete.md` R185 to R191): the sixteen words of a bucket
after a compaction, what a compaction keeps of the slots, the one bucket a `DELETE` touches, and what
a `CHECK` right after it answers. -/

namespace Sys2Proof.Machine

/-! ### The words of a bucket after a compaction -/

section
variable {m : Memory} {k i : Nat} (h : Memory.wf m = true) (hk : k ≤ 20)
include h hk

/-- A slot after a compaction (R185). -/
theorem slotsOf_compact_getD (b i : Nat) : (slotsOf (compact m b k) b).getD i 0 =
    if i < k then (slotsOf m b).getD i 0
    else if i < 20 then (slotsOf m b).getD (i + 1) 0 else 0 := by
  rw [slotsOf_compact h hk, closeGap_getD (slotsOf_length m b) hk]

/-- The high parts after a compaction: those from word `k` on come from one word further, and
extended slot 0 crosses into word 15 (R186). -/
theorem highPart_compact (b : Nat) (hi : i < 16) :
    highPart (memRead (compact m b k) (wordAddr b i)) =
      compactHigh (fun x => memRead m (wordAddr b x)) k i := by
  rw [highPart_memRead _ _ hi, slotsOf_compact_getD h hk, if_pos (show i < 20 by omega)]
  unfold compactHigh
  by_cases hik : i < k
  · rw [if_pos hik, if_pos hik, highPart_memRead m b hi]
  · rw [if_neg hik, if_neg hik]
    split
    case isTrue h15 => rw [highPart_memRead m b (by omega)]
    case isFalse h15 =>
      obtain rfl : i = 15 := by omega
      exact slotsOf_extended m b (show 0 < 5 by decide)

/-- The low bytes after a compaction: extended slots before `k` stay, the others take the next one
or, the last of them, become empty, and the stamp in word 15 stays (R186). -/
theorem lowPart_compact (b : Nat) (hi : i < 16) :
    lowPart (memRead (compact m b k) (wordAddr b i)) =
      compactLow (fun x => memRead m (wordAddr b x)) k i := by
  unfold compactLow
  split
  case isTrue h15 =>
    subst h15
    exact stampOf_compact h hk
  case isFalse h15 =>
    rw [lowPart_memRead _ _ (by omega), slotsOf_compact_getD h hk]
    by_cases hik : 16 + i / 3 < k
    · rw [if_pos hik, if_pos hik, lowPart_memRead m b (by omega)]
    · rw [if_neg hik, if_neg hik]
      split
      case isTrue hlast =>
        rw [if_pos (by omega), lowPart_memRead m b (by omega),
          show 16 + (i + 3) / 3 = 16 + i / 3 + 1 by omega, Nat.add_mod_right]
      case isFalse hlast =>
        rw [if_neg (by omega)]
        exact BitVec.extractLsb'_zero

end

/-- Settles O24: a word is its high part and its low byte. -/
theorem compactionByWords : Obligations.CompactionByWords := fun _ b _ h hk _ hi =>
  eq_append_of_parts (highPart_compact h hk b hi) (lowPart_compact h hk b hi)

/-! ### What a compaction keeps of the slots -/

/-- Closing a gap is removing a slot and appending an empty one (R185). -/
theorem closeGap_eq_eraseIdx (l : List Digest) (k : Nat) : closeGap l k = l.eraseIdx k ++ [0] := by
  rw [closeGap, List.eraseIdx_eq_take_drop_succ]

/-- Closing the gap of an occupied slot gives one empty slot more (R187). -/
theorem emptyCount_closeGap {l : List Digest} {k : Nat} (hk : k < l.length)
    (hoccupied : l.getD k 0 ≠ 0) : emptyCount (closeGap l k) = emptyCount l + 1 := by
  have hcount := closeGap_count l k hk 0
  rwa [if_neg hoccupied, if_pos rfl] at hcount

/-- Settles O27: the slots are those with the gap closed; the stamp and the other buckets stay. -/
theorem compactionKeepsTheBucketInvariants : Obligations.CompactionKeepsTheBucketInvariants := by
  intro m b k h hk hoccupied hprefix hnodup
  have hl := slotsOf_length m b
  rw [slotsOf_compact h hk]
  exact ⟨emptyCount_closeGap (by omega) hoccupied, occupiedPrefix_closeGap hl hk hprefix,
    noDuplicate_closeGap hl hk hnodup, closeGap_eq_eraseIdx _ _, stampOf_compact h hk,
    fun _ ha => readByte_compact_outside k ha⟩

/-! ### The two outcomes of `DELETE` -/

/-- What a `DELETE` that answers `t` did: it took the digest of a candidate pair out of its bucket,
or neither candidate bucket held its digest (R188, R189). -/
inductive DeleteOutcome (h : DWord) (s : State) : State → Prop
  | removed (b : Nat) (d : Digest) (m : Memory)
      (hpair : CandidatePair (derive s.config s.ibits h) s.mem b d) (hmem : d ∈ slotsOf s.mem b)
      (hwf : Memory.wf m = true) (hremoved : RemovedAndCompacted s.mem m b d) :
      DeleteOutcome h s { s with mem := m, rsp := some ⟨.ok, true, 0⟩ }
  | missed
      (h1 : (derive s.config s.ibits h).digest1 ∉
        slotsOf s.mem (derive s.config s.ibits h).index1.toNat)
      (h2 : (derive s.config s.ibits h).digest2 ∉
        slotsOf s.mem (derive s.config s.ibits h).index2.toNat) :
      DeleteOutcome h s { s with rsp := some ⟨.ok, false, 0⟩ }

/-- A `DELETE` with a table completes with one of the outcomes (R188). -/
theorem exec_delete_outcome (h : DWord) {s : State} (hs : TableReady s) :
    ∃ t, exec (.delete h) s = .next t ∧ DeleteOutcome h s t := by
  rcases execDelete_cases h hs.cfg hs.ibits_le with ⟨k, hf, he⟩ | ⟨h1, k, hf, he⟩ | ⟨h1, h2, he⟩
  · exact ⟨_, he, .removed _ _ _ (.inl ⟨rfl, rfl⟩) (findSlot_isSome_iff.1 ⟨k, hf⟩)
      (compact_wf _ k hs.mem_wf) (compact_removed hs.mem_wf hf)⟩
  · exact ⟨_, he, .removed _ _ _ (.inr ⟨rfl, rfl, h1⟩) (findSlot_isSome_iff.1 ⟨k, hf⟩)
      (compact_wf _ k hs.mem_wf) (compact_removed hs.mem_wf hf)⟩
  · exact ⟨_, he, .missed h1 h2⟩

/-- Settles O45: the candidate pair is the first, or the second with the first bucket without its
digest, or there is none. -/
theorem deleteRemovesOneDigest : Obligations.DeleteRemovesOneDigest := by
  intro h s hs c b1 b2
  obtain ⟨t, he, hout⟩ := exec_delete_outcome h hs
  cases hout with
  | removed b d m hpair hmem hwf hremoved =>
    rcases hpair with ⟨rfl, rfl⟩ | ⟨rfl, rfl, h1⟩
    · refine ⟨m, ?_, hwf, fun _ => hremoved, fun hn => absurd hmem hn, fun hn => absurd hmem hn⟩
      rw [he, decide_eq_true (.inl hmem)]
    · refine ⟨m, ?_, hwf, fun hm => absurd hm h1, fun _ _ => hremoved, fun _ hn => absurd hmem hn⟩
      rw [he, decide_eq_true (.inr hmem)]
  | missed h1 h2 =>
    refine ⟨s.mem, ?_, hs.mem_wf, fun hm => absurd hm h1, fun _ hm => absurd hm h2, fun _ _ => rfl⟩
    rw [he, decide_eq_false (not_or.2 ⟨h1, h2⟩)]

/-! ### `CHECK` right after `DELETE` -/

/-- In a bucket without duplicates the removed digest was the only one of its value (R42 item 3). -/
theorem RemovedAndCompacted.not_mem {m m' : Memory} {b : Nat} {d : Digest}
    (h : RemovedAndCompacted m m' b d) (hnodup : NoDuplicate (slotsOf m b)) (hd : d ≠ 0) :
    d ∉ slotsOf m' b := by
  have hcount := (noDuplicate_iff_count _ (slotsOf_length m b)).1 hnodup d hd
  have herase : d ∉ (slotsOf m b).erase d := by
    rw [← List.count_eq_zero, List.count_erase_self]
    omega
  rw [h.slots, List.mem_append, List.mem_singleton]
  exact not_or.2 ⟨herase, hd⟩

/-- After a `DELETE` some candidate bucket holds its paired digest exactly when both did before: the
one that hit has lost it, and the other is as it was (R191). -/
theorem DeleteOutcome.present_iff {h : DWord} {s t : State} (hout : DeleteOutcome h s t)
    (hinv : StateInv s) (hc : s.cfg = true) :
    let c := derive s.config s.ibits h
    (c.digest1 ∈ slotsOf t.mem c.index1.toNat ∨ c.digest2 ∈ slotsOf t.mem c.index2.toNat) ↔
      c.digest1 ∈ slotsOf s.mem c.index1.toNat ∧ c.digest2 ∈ slotsOf s.mem c.index2.toNat := by
  intro c
  have hs := hinv.tableReady hc
  cases hout with
  | missed h1 h2 => exact iff_of_false (not_or.2 ⟨h1, h2⟩) fun hboth => h1 hboth.1
  | removed b d m hpair hmem hwf hremoved =>
    obtain ⟨hb, hd⟩ := hpair.valid hs.legal hs.ibits_le
    have hgone : d ∉ slotsOf m b := hremoved.not_mem ((hinv.table hc).nodup_ok b hb) hd
    obtain ⟨-, -, hlt, hle, -⟩ :=
      indicesLieInOppositeHalves s.config s.ibits h hs.legal hs.ibits_pos hs.ibits_le
    have hne : c.index1.toNat ≠ c.index2.toNat := (hlt.trans_le hle).ne
    rcases hpair with ⟨rfl, rfl⟩ | ⟨rfl, rfl, h1⟩
    · rw [slotsOf_of_outside hremoved.outside hne.symm, or_iff_right hgone, and_iff_right hmem]
    · rw [slotsOf_of_outside hremoved.outside hne]
      exact iff_of_false (not_or.2 ⟨h1, hgone⟩) fun hboth => h1 hboth.1

/-- A `DELETE` leaves the table there, with the same candidates for every hash (R190). -/
theorem DeleteOutcome.ready {h : DWord} {s t : State} (hout : DeleteOutcome h s t)
    (hs : TableReady s) : TableReady t ∧ t.config = s.config ∧ t.ibits = s.ibits := by
  cases hout with
  | removed b d m hpair hmem hwf => exact ⟨{ hs with mem_wf := hwf }, rfl, rfl⟩
  | missed => exact ⟨{ hs with }, rfl, rfl⟩

/-- Settles O46: `CHECK` answers membership, and what is present after the `DELETE` is what was
present twice before. -/
theorem checkAfterDelete : Obligations.CheckAfterDelete := by
  intro h s t hinv hc hexec c
  have hs := hinv.tableReady hc
  obtain ⟨t', he, hout⟩ := exec_delete_outcome h hs
  obtain rfl := Host.Outcome.next.inj (he.symm.trans hexec)
  obtain ⟨hready, hconfig, hibits⟩ := hout.ready hs
  obtain ⟨m, hcheck, -⟩ := checkAnswersMembership h t' hready
  rw [hconfig, hibits] at hcheck
  simp only [hout.present_iff hinv hc] at hcheck
  exact ⟨_, hcheck, rfl⟩

end Sys2Proof.Machine
end

section
/-! PROOFS. The table lifecycle (`46_lifecycle.md`): the zeroing sweep as the loop of word writes, the
width `CREATE` takes, and `FLUSH` against `DESTROY` and `CREATE` (R195, R196, R204 to R206). -/

namespace Sys2Proof.Machine

/-! ### The zeroing sweep (R195, R204) -/

/-- The loop of the rules: 0 to the words `0 .. k-1`, one after another. -/
def zeroWords (m : Memory) (k : Nat) : Memory := (List.range k).foldl (fun m a => memWrite m a 0) m

@[simp] theorem zeroWords_zero (m : Memory) : zeroWords m 0 = m := rfl

@[simp] theorem zeroWords_succ (m : Memory) (k : Nat) :
    zeroWords m (k + 1) = memWrite (zeroWords m k) k 0 := by
  rw [zeroWords, List.range_succ, List.foldl_append]
  rfl

section
variable {m : Memory} (h : Memory.wf m = true)
include h

theorem zeroWords_wf (k : Nat) : Memory.wf (zeroWords m k) = true := by
  induction k with
  | zero => exact h
  | succ k ih => simpa using memWrite_wf k 0 ih

/-- A word the loop has passed reads 0; every other word reads as before. -/
theorem memRead_zeroWords (k a : Nat) :
    memRead (zeroWords m k) a = if a < k then 0 else memRead m a := by
  induction k with
  | zero => simp
  | succ k ih =>
    rw [zeroWords_succ, memRead_memWrite k a 0 (zeroWords_wf h k), ih]
    by_cases hak : k = a
    · rw [if_pos hak, if_pos (by omega)]
    · rw [if_neg hak, if_congr (show a < k + 1 ↔ a < k by omega) rfl rfl]

end

/-- Settles O21: both stores are in canonical form and read alike word by word. -/
theorem sweepIsTheLoopOfWordWrites : Obligations.SweepIsTheLoopOfWordWrites := by
  intro m n h
  show clearBuckets m n = zeroWords m (16 * n)
  refine Memory.ext_of_memRead (clearBuckets_wf n h) (zeroWords_wf h (16 * n)) fun a => ?_
  rw [memRead_clearBuckets, memRead_zeroWords h]

/-! ### Sizing (R196) -/

/-- Settles O47: 59 is among the widths that give the slots asked for, so the least is at most 59. -/
theorem sizingIsTheLeastWidth : Obligations.SizingIsTheLeastWidth := by
  intro cap
  obtain ⟨hpos, henough, hleast⟩ := widthFor_least cap
  have hcap : cap.toNat ≤ 42 * 2 ^ 59 := by
    have := cap.isLt
    omega
  exact ⟨hpos, henough, hleast 59 (by decide) hcap, hleast⟩

/-! ### `FLUSH` (R204 to R206) -/

/-- `FLUSH` of a table that lies in the store (R204). -/
theorem execFlush_of_ready {s : State} (hc : s.cfg = true) (hs : s.ibits ≤ s.config.ibitsMax) :
    execFlush 0 s = .next (respond false 0
      { s with mem := clearBuckets s.mem (tableBuckets s.ibits), epoch := 1, inscnt := 0 }) :=
  (requireTable_of_cfg hc _).trans (requireStore_of_le hs _)

/-- Settles O50: the sweep zeroes the table's bytes and keeps the canonical form. -/
theorem flushEmptiesTheTable : Obligations.FlushEmptiesTheTable := fun s hs =>
  ⟨clearBuckets s.mem (tableBuckets s.ibits), readByte_clearTable s.mem s.ibits,
    clearBuckets_wf _ hs.mem_wf, execFlush_of_ready hs.cfg hs.ibits_le⟩

/-- Settles O51: `FLUSH` and `CREATE` set the same registers and sweep the same buckets, and the
invariant gives `FLUSH` the `THRESH` that `CREATE` computes. -/
theorem flushedTableIsAFreshTable : Obligations.FlushedTableIsAFreshTable := by
  intro s t u v cap hinv hc hwidth hflush hdestroy hcreate
  have htable := hinv.table hc
  obtain rfl := Host.Outcome.next.inj ((execFlush_of_ready hc htable.ibits_le).symm.trans hflush)
  obtain rfl := Host.Outcome.next.inj ((execDestroy_of_cfg hc).symm.trans hdestroy)
  have hfits : widthFor cap ≤ s.config.ibitsMax := hwidth.trans_le htable.ibits_le
  obtain rfl := Host.Outcome.next.inj (hcreate.symm.trans (execCreate_of_fits rfl hfits))
  rw [hwidth]
  exact {
    config := rfl, inputs := rfl, randIn := rfl, rsp := rfl, cfg := hc, errs := rfl, lasterr := rfl
    ibits := fun _ => rfl, seed := fun _ => rfl, epoch := fun _ => rfl, inscnt := fun _ => rfl
    thresh := fun _ => htable.thresh_eq, drops := fun _ => rfl
    words := fun _ => sameBuckets_clearBuckets _ _ _ }

end Sys2Proof.Machine
end

section
/-! PROOFS. Refusals (`60_exceptions.md`): the order of the checks decides the outcome, the codes each
command can return, what moves `CFG`, that every step answers, and the host's actions other than a
command (R220 to R223, R231, R237, R239, R250, R262). -/

namespace Sys2Proof.Machine

/-! ### What the first failing check decides (R222, R223) -/

/-- The state after a command whose first failing check has the code `e`: with no failing check it
answers code 0 and records no refusal, otherwise it is refused with `e`. -/
inductive Decided (s : State) : ErrCode → State → Prop
  | executed {t : State} {r : Response} (hrsp : t.rsp = some r) (hr : r.err = .ok)
      (herrs : t.errs = s.errs) (hlasterr : t.lasterr = s.lasterr) : Decided s .ok t
  | refused {e : ErrCode} (he : e ≠ .ok) : Decided s e (refuse e s)

/-- Every next state that the result answers is the one the code decides. -/
def Decides (s : State) (e : ErrCode) (k : Result) : Prop := ∀ t, k = .next t → Decided s e t

section
variable {s t : State} {e : ErrCode} {k : Result}

/-- The response carries the deciding code, 0 included. -/
theorem Decided.exists_rsp (h : Decided s e t) : ∃ r, t.rsp = some r ∧ r.err = e := by
  cases h with
  | executed hrsp hr => exact ⟨_, hrsp, hr⟩
  | refused => exact ⟨_, rfl, rfl⟩

theorem Decides.next (h : Decided s e t) : Decides s e (.next t) := fun _ ht =>
  Host.Outcome.next.inj ht ▸ h

/-- An answer made from a state that recorded no refusal executes the command. -/
theorem Decides.respond {u : State} (res : Bool) (val : DWord) (herrs : u.errs = s.errs := by rfl)
    (hlasterr : u.lasterr = s.lasterr := by rfl) : Decides s .ok (.next (respond res val u)) :=
  .next (.executed rfl rfl herrs hlasterr)

theorem Decides.refuse (he : e ≠ .ok) : Decides s e (.next (refuse e s)) := .next (.refused he)

/-- Step 2 of R223. -/
theorem Decides.requireOperand (good : Bool) (hk : Decides s e k) :
    Decides s (if good = false then .operand else e) (requireOperand good s k) := by
  cases good
  · exact .refuse (e := .operand) (by decide)
  · exact hk

/-- Step 3 of R223. -/
theorem Decides.requireTable (hk : Decides s e k) :
    Decides s (if s.cfg then e else .noTable) (requireTable s k) := by
  cases hc : s.cfg
  · rw [requireTable_of_not_cfg hc]
    exact .refuse (e := .noTable) (by decide)
  · rw [requireTable_of_cfg hc]
    exact hk

/-- Step 4 of R223. -/
theorem Decides.requireRange (idx : Nat) (hk : Decides s e k) :
    Decides s (if 2 * 2 ^ s.ibits ≤ idx then .range else e) (requireRange idx s k) := by
  by_cases hidx : tableBuckets s.ibits ≤ idx
  · rw [requireRange_of_le hidx, if_pos (by exact hidx)]
    exact .refuse (by decide)
  · rw [requireRange_of_lt (Nat.lt_of_not_le hidx), if_neg (by exact hidx)]
    exact hk

/-- The store check lets a command through or stops the block; it refuses nothing. -/
theorem Decides.requireStore (hk : Decides s e k) : Decides s e (requireStore s k) := fun t h =>
  hk t (requireStore_eq_next h).2

/-- The checks of `BLKUP`, `BLKUPC` and `RDW`, steps 2 to 4 of R223 (R126 to R128). -/
theorem Decides.bucketCommand (good : Bool) (idx : Nat) (hk : Decides s .ok k) :
    Decides s
      (if good = false then .operand
        else if s.cfg = false then .noTable else if 2 * 2 ^ s.ibits ≤ idx then .range else .ok)
      (Machine.requireOperand good s (Machine.requireTable s
        (Machine.requireRange idx s (Machine.requireStore s k)))) := by
  refine .requireOperand good ?_
  cases hc : s.cfg
  · rw [requireTable_of_not_cfg hc]
    exact .refuse (e := .noTable) (by decide)
  · rw [requireTable_of_cfg hc]
    exact .requireRange idx hk.requireStore

end

/-! ### The commands -/

/-- A width holds the capacity asked for exactly when the least such width is no larger (R196,
R197). -/
theorem widthFor_le_iff {cap : DWord} {n : Nat} (hn : 1 ≤ n) :
    widthFor cap ≤ n ↔ cap.toNat ≤ 42 * 2 ^ n := by
  obtain ⟨-, henough, hleast⟩ := widthFor_least cap
  refine ⟨fun hle => henough.trans ?_, hleast n hn⟩
  exact Nat.mul_le_mul_left 42 (Nat.pow_le_pow_right (by decide) hle)

/-- The checks of `CREATE` in every state: `E_EXISTS` first, then the width against the store (R197,
R200). -/
theorem execCreate_decides (cap : DWord) (s : State) :
    Decides s (if s.cfg then .exist else if s.config.ibitsMax < widthFor cap then .alloc else .ok)
      (execCreate cap s) := by
  rw [execCreate]
  dsimp only
  split_ifs
  · exact .refuse (by decide)
  · exact .refuse (by decide)
  · exact .respond _ _

/-- R223's step 5 measures the capacity where `CREATE` compares widths. -/
theorem firstFailingCheck_create (cap : DWord) {s : State} (hmax : 1 ≤ s.config.ibitsMax) :
    firstFailingCheck (.create cap) s =
      if s.cfg then .exist else if s.config.ibitsMax < widthFor cap then .alloc else .ok := by
  have hfits : s.config.ibitsMax < widthFor cap ↔ 42 * 2 ^ s.config.ibitsMax < cap.toNat := by
    rw [← not_le, widthFor_le_iff hmax, not_le]
  simp only [hfits]
  rfl

/-- The registers 0 and 1, `STATUS` and `HWCFG`, as a bound on the number (R210). -/
theorem lt_two_iff_statusOrHwcfg (rn : BitVec 8) : rn.toNat < 2 ↔ rn = 0 ∨ rn = 1 := by
  bv_omega

/-- R223 for `RDREG`, with the register's number in the place of its name (R210). -/
theorem firstFailingCheck_rdreg (rsv : BitVec 56) (rn : BitVec 8) (s : State) :
    firstFailingCheck (.rdreg rsv rn) s =
      if formatROk rsv rn = false then .operand
      else if rn.toNat < 2 then .ok else if s.cfg then .ok else .noTable := by
  simp only [lt_two_iff_statusOrHwcfg]
  rfl

/-- The checks of `RDREG`: the table check stands only before the nine table registers (R210). -/
theorem execRdreg_decides (rsv : BitVec 56) (rn : BitVec 8) (s : State) :
    Decides s (firstFailingCheck (.rdreg rsv rn) s) (execRdreg rsv rn s) := by
  rw [firstFailingCheck_rdreg]
  refine .requireOperand (formatROk rsv rn) ?_
  split
  · exact .respond _ _
  · exact .requireTable (.respond _ _)

/-- A lookup in the first candidate bucket or else in the second answers code 0 (R180). -/
theorem execCheck_decides (h : DWord) (s : State) :
    Decides s (if s.cfg then .ok else .noTable) (execCheck h s) := by
  refine .requireTable (.requireStore ?_)
  dsimp only
  split <;> exact .respond _ _

/-- A hit in a candidate bucket, or the insertion with its counters, answers code 0 (R155). -/
theorem execSet_decides (h : DWord) (s : State) :
    Decides s (if s.cfg then .ok else .noTable) (execSet h s) := by
  refine .requireTable (.requireStore ?_)
  dsimp only
  split
  · exact .respond _ _
  · split
    · exact .respond _ _
    · exact .respond _ _ (by simp) (by simp)

/-- A removal from a candidate bucket, or none, answers code 0 (R188). -/
theorem execDelete_decides (h : DWord) (s : State) :
    Decides s (if s.cfg then .ok else .noTable) (execDelete h s) := by
  refine .requireTable (.requireStore ?_)
  dsimp only
  split
  · exact .respond _ _
  · split <;> exact .respond _ _

/-- Every command's outcome is the one its first failing check decides. `CREATE` needs a store with
room for the least table. -/
theorem exec_decides (i : Instr) (s : State)
    (hmax : ∀ cap, i = .create cap → 1 ≤ s.config.ibitsMax) :
    Decides s (firstFailingCheck i s) (exec i s) := by
  cases i with
  | create cap =>
    rw [firstFailingCheck_create cap (hmax cap rfl)]
    exact execCreate_decides cap s
  | destroy => exact .requireOperand _ (.requireTable (.respond _ _))
  | flush => exact .requireOperand _ (.requireTable (.requireStore (.respond _ _)))
  | rdreg rsv rn => exact execRdreg_decides rsv rn s
  | check h => exact execCheck_decides h s
  | set h => exact execSet_decides h s
  | delete h => exact execDelete_decides h s
  | deriv1 | deriv2 => exact .requireTable (.respond _ _)
  | blkup | blkupc | rdw => exact .bucketCommand _ _ (.respond _ _)

/-- Settles O10: the command answers, and its first failing check decides what. -/
theorem firstFailingCheckDecidesTheOutcome : Obligations.FirstFailingCheckDecidesTheOutcome := by
  intro i s hlegal hstore
  obtain ⟨-, -, -, -, -, -, hmax, -⟩ := hlegal
  obtain ⟨t, ht⟩ := exec_progress i hstore
  have hdecided := exec_decides i s (fun _ _ => hmax) t ht
  rw [ht]
  generalize firstFailingCheck i s = e at hdecided
  cases hdecided with
  | executed hrsp hr herrs hlasterr =>
    exact ⟨fun _ => ⟨t, _, rfl, hrsp, hr, herrs, hlasterr⟩, fun hne => absurd rfl hne⟩
  | refused he => exact ⟨fun hok => absurd hok he, fun _ => rfl⟩

/-! ### The matrix of error codes (R239) -/

/-- The two rows of `RDREG`; a number above 10 is no register and fails the operand check (R35). -/
theorem firstFailingCheck_rdreg_mem (rsv : BitVec 56) (rn : BitVec 8) (s : State) :
    if rn.toNat ≤ 1 then firstFailingCheck (.rdreg rsv rn) s ∈ [ErrCode.ok, .operand]
    else if rn.toNat ≤ 10 then
      firstFailingCheck (.rdreg rsv rn) s ∈ [ErrCode.ok, .operand, .noTable]
    else firstFailingCheck (.rdreg rsv rn) s = .operand := by
  rw [firstFailingCheck_rdreg]
  by_cases hbad : formatROk rsv rn = false
  · rw [if_pos hbad]
    split_ifs <;> simp
  · obtain ⟨-, hle⟩ := (formatROk_iff rsv rn).1 (Bool.eq_true_of_not_eq_false hbad)
    rw [if_neg hbad]
    by_cases hlt : rn.toNat < 2
    · rw [if_pos hlt, if_pos (Nat.le_of_lt_succ hlt)]
      simp
    · rw [if_neg hlt, if_neg (by omega), if_pos hle]
      split_ifs <;> simp

/-- Settles O11: the code is that of the first failing check, and each command has only the checks of
its row. -/
theorem refusalCodesAreThoseOfTheMatrix : Obligations.RefusalCodesAreThoseOfTheMatrix := by
  intro i s t h
  by_cases hcreate : ∃ cap, i = .create cap
  · obtain ⟨cap, rfl⟩ := hcreate
    obtain ⟨r, hrsp, hcode⟩ := (execCreate_decides cap s t h).exists_rsp
    refine ⟨r, hrsp, ?_⟩
    rw [hcode]
    split_ifs <;> simp
  · obtain ⟨r, hrsp, hcode⟩ :=
      (exec_decides i s (fun cap hi => absurd ⟨cap, hi⟩ hcreate) t h).exists_rsp
    refine ⟨r, hrsp, ?_⟩
    cases i with
    | create cap => exact absurd ⟨cap, rfl⟩ hcreate
    | check | set | delete | deriv1 | deriv2 =>
      rw [hcode, firstFailingCheck, if_neg (by simp [Instr.wf, formatHOk])]
      split_ifs <;> simp
    | destroy | flush | blkup | blkupc | rdw =>
      rw [hcode, firstFailingCheck]
      split_ifs <;> simp
    | rdreg rsv rn =>
      rw [hcode]
      exact firstFailingCheck_rdreg_mem rsv rn s

/-! ### What moves `CFG` (R231) -/

/-- A table appears by `CREATE` alone, with a width that the store holds. -/
theorem Answers.create_of_cfg_set {i : Instr} {s t : State} (ha : Answers i s t)
    (hs : s.cfg = false) (ht : t.cfg = true) :
    ∃ cap, i = .create cap ∧ widthFor cap ≤ s.config.ibitsMax := by
  cases ha with
  | create cap _ _ hw => exact ⟨cap, rfl, hw⟩
  | refused => exact absurd (hs.symm.trans ht) Bool.false_ne_true
  | _ => exact absurd (hs.symm.trans ‹s.cfg = true›) Bool.false_ne_true

/-- A table disappears by `DESTROY` with a zero operand alone. -/
theorem Answers.destroy_of_cfg_cleared {i : Instr} {s t : State} (ha : Answers i s t)
    (hs : s.cfg = true) (ht : t.cfg = false) : i = .destroy 0 := by
  cases ha with
  | destroy => rfl
  | create => exact absurd ht.symm Bool.false_ne_true
  | setInsert => simp [hs] at ht
  | _ => exact absurd (ht.symm.trans hs) Bool.false_ne_true

/-- Settles O12: the two commands do move `CFG`, and the inversion of `exec` leaves no other. -/
theorem onlyCreateAndDestroyMoveCfg : Obligations.OnlyCreateAndDestroyMoveCfg := by
  intro i s t hlegal h
  obtain ⟨-, -, -, -, -, -, hmax, -⟩ := hlegal
  have ha := exec_answers i s t h
  refine ⟨fun hc => ⟨fun ht => ?_, ?_⟩, fun hc => ⟨ha.destroy_of_cfg_cleared hc, ?_⟩⟩
  · obtain ⟨cap, hi, hfits⟩ := ha.create_of_cfg_set hc ht
    exact ⟨cap, hi, (widthFor_le_iff hmax).1 hfits⟩
  · rintro ⟨cap, rfl, hcap⟩
    have hcreate := execCreate_of_fits hc ((widthFor_le_iff hmax).2 hcap)
    obtain rfl := Host.Outcome.next.inj (hcreate.symm.trans h)
    rfl
  · rintro rfl
    obtain rfl := Host.Outcome.next.inj ((execDestroy_of_cfg hc).symm.trans h)
    rfl

/-! ### The step (R220, R262, R263) -/

/-- While its table, if any, lies in the store, the block answers whatever the host does. -/
theorem step_progress {s : State} (hs : s.cfg = true → s.ibits ≤ s.config.ibitsMax) :
    ∃ t, step s = .next t := by
  rw [step]
  split
  case h_1 s' _ => exact ⟨s', rfl⟩
  case h_2 c s' haccept =>
    obtain ⟨rest, rfl⟩ := acceptAction_issued haccept
    exact runCommand_progress c hs

/-- Settles O15: the invariant keeps the table in the store. -/
theorem noStepStopsTheBlock : Obligations.NoStepStopsTheBlock := fun _ h =>
  step_progress fun hc => (h.table hc).ibits_le

/-- A step without a command is the host's action alone (R262). -/
theorem step_of_no_command {s t : State} (h : acceptAction s = (none, t)) : step s = .next t := by
  rw [step, h]

/-- Settles O8, action by action. -/
theorem hostActionsDoWhatTheTableSays : Obligations.HostActionsDoWhatTheTableSays := by
  intro s rest
  refine ⟨fun hin => ?_, fun hin => ?_, fun r hin => ?_, fun hin => ?_, fun hin => ?_⟩
  · exact step_of_no_command (by rw [acceptAction, hin])
  · exact step_of_no_command (by rw [acceptAction, hin])
  · exact step_of_no_command (by rw [acceptAction, hin])
  · exact step_of_no_command (by rw [acceptAction, hin])
  · exact ⟨hardReset { s with inputs := rest }, step_of_no_command (by rw [acceptAction, hin]),
      rfl, rfl, rfl, rfl, rfl, rfl, rfl⟩

end Sys2Proof.Machine
end

section
/-! PROOFS. An issued word that decodes is executed (`70_reset_and_hazards.md` R262, R263). -/

namespace Sys2Proof.Machine

/-- A word that decodes is run as its command (R263). -/
theorem runCommand_of_decode {c : CommandWord} {i : Instr} (h : decode c = .ok i) (s : State) :
    runCommand c s = exec i s := by
  rw [runCommand, h]

/-- Settles O6: the step runs the issued word, and the word runs its command. The host's list is the
model's own (log 3). -/
theorem stepRunsTheDecodedCommand : Obligations.StepRunsTheDecodedCommand := by
  intro s c rest i hin hdecode
  calc step s = runCommand c { s with inputs := rest } := step_of_issue hin
    _ = exec i { s with inputs := rest } := runCommand_of_decode hdecode _

end Sys2Proof.Machine
end
